-- ==== Sys2Proof/Word.lean ====
section
/-! DEFINITION. The machine's two widths: bytes of the program and int32 values of the operand stack. -/

namespace Sys2Proof

/-- A program byte, an opcode or a PUSH immediate: 8 bits, read as 0 to 255 by `BitVec.toNat`
(00_scope.md R10). -/
abbrev Byte := BitVec 8

/-- A value of the operand stack: 32 bits, two's complement (10_state.md R16, R10). The int32 it
stands for is `BitVec.toInt`. -/
abbrev Word := BitVec 32

/-- The least int32, -2^31 (00_scope.md R10). -/
def int32Min : Int := -2 ^ 31

/-- The greatest int32, 2^31 - 1 (00_scope.md R10). -/
def int32Max : Int := 2 ^ 31 - 1

/-- The set int32 of 00_scope.md R10, as a range of integers. -/
abbrev InInt32 (v : Int) : Prop := int32Min ≤ v ∧ v ≤ int32Max

end Sys2Proof
end

