-- ==== Sys2Proof/Config.lean ====
section
/-! DEFINITION. What a realisation of the block fixes, and the free values of the model.

The spec's parameters are CAPACITY, PROGRAM (with its length N) and OVERFLOW_POLICY (00_scope.md R8).
The step of this model is a function of the state alone, so all three are fields of the state that no
step writes; every statement about all states is a statement about all their values. -/

namespace Sys2Proof

/-- OVERFLOW_POLICY: what ADD, SUB, MUL and DIV do when the exact result is outside the int32 range
(00_scope.md R8, 40_execution_cycle.md R68; OPEN, 92_eei_decisions.md D7). -/
inductive OverflowPolicy where
  | wrap
  | fault
  deriving DecidableEq, Repr, Inhabited

/-- The overflow policy of the machine that `State.reset` describes. The spec has evidence for neither
value, so it is a constant with no body: no proof can see which one it is.
DESIGN CHOICE, safe (log 2). -/
opaque Config.overflowPolicy : OverflowPolicy

/-- CAPACITY of the machine that `State.reset` describes: the document's example value. The host
supplies the capacity (70_reset_and_hazards.md R113) and no rule depends on 1024 (00_scope.md R8);
no statement rests on it. DESIGN CHOICE, unsafe (log 1). -/
def Config.resetCapacity : Nat := 1024

/-- What `ip` holds after a fault, before it is cut to its range: unspecified (60_exceptions.md R99).
A free value for each draw, of everything there is before the fault (`before` is the fault's kind with
the whole state), so that no proof can relate it to any other value. DESIGN CHOICE, safe (log 6). -/
opaque Config.ipAfterFault {α : Type} (draw : Nat) (before : α) : Nat

/-- What the stack holds after a fault, before it is cut to its range: unspecified
(60_exceptions.md R99). DESIGN CHOICE, safe (log 6). -/
opaque Config.stackAfterFault {α : Type} (draw : Nat) (before : α) : List Word

end Sys2Proof
end

