-- ==== Sys2Proof/Machine/State.lean ====
section
/-! DEFINITION. The state of the machine as plain data, the reasons a step can stop, and reset. -/

namespace Sys2Proof.Machine

/-- The program memory: `N` bytes at addresses 0 to `N - 1` (20_memory.md R32), `size` being `N`.
`cells` lists, by rising address, the bytes that differ from `Memory.unlisted`, so that every byte
sequence is exactly one such value (log 4). -/
structure Memory where
  size : Nat
  cells : List Host.Cell
  deriving DecidableEq, Repr

/-- What an address below `size` reads as when `cells` does not list it. A way to write byte sequences,
not a claim about unwritten memory: the program is given whole (log 4). -/
def Memory.unlisted : Byte := 0x00

/-- The canonical form: addresses strictly rising, all in the program, and no byte listed that an
unlisted address reads as. -/
abbrev Memory.wf (m : Memory) : Prop :=
  m.cells.Pairwise (fun c d => c.1 < d.1) ∧ ∀ c ∈ m.cells, c.1 < m.size ∧ c.2 ≠ Memory.unlisted

/-- The seven fault kinds of 60_exceptions.md R95 with the payloads of R97: the fetched byte for
InvalidOpcode, the popped int32 for InvalidJumpTarget, nothing for the others. -/
inductive FaultKind where
  | stackUnderflow
  | stackOverflow
  | invalidOpcode (b : Byte)
  | divisionByZero
  | invalidJumpTarget (target : Word)
  | programBoundsExceeded
  | arithmeticOverflow
  deriving DecidableEq, Repr

/-- The engine state (10_state.md R20). The fault record of R21 is the kind that `faulted` carries. -/
inductive Status where
  | running
  | halted
  | faulted (kind : FaultKind)
  deriving DecidableEq, Repr

/-- An output event (10_state.md R25). -/
inductive Event where
  | emitNumber (v : Word)
  | emitByte (b : Byte)
  deriving DecidableEq, Repr

/-- The whole state of the block, with the parameters of the run (00_scope.md R8), which no step
writes. -/
structure State where
  /-- CAPACITY, the number of stack slots. -/
  capacity : Nat
  /-- OVERFLOW_POLICY. -/
  overflowPolicy : OverflowPolicy
  /-- PROGRAM, whose length is N. -/
  program : Memory
  /-- The instruction pointer (10_state.md R14). -/
  ip : Nat
  /-- The live elements of the operand stack, the top first (10_state.md R16; log 5). -/
  stack : List Word
  /-- The engine state with the fault record (10_state.md R20, R21). -/
  status : Status
  /-- The output stream, oldest event first (10_state.md R25). -/
  out : List Event
  /-- The model's own: how many times free values have been drawn (log 6). -/
  draws : Nat
  deriving DecidableEq, Repr

/-- Why the MODEL has no next state. The spec's own faults are not among these: raising one is a next
state whose status is Faulted (60_exceptions.md R98; log 7). -/
inductive Fault where
  /-- Raised by `step` alone, in status Halted: a step is defined only in Running
  (40_execution_cycle.md R60). Safe: the hardware takes no step there either. -/
  | stepAfterHalt
  /-- Raised by `step` alone, in status Faulted: faults are terminal (40_execution_cycle.md R60,
  60_exceptions.md R100). Safe: the hardware takes no step there either. -/
  | stepAfterFault (kind : FaultKind)
  deriving DecidableEq, Repr

/-- Refusals. The decoder and the step are total (93_implementation_defined.md), so nothing is refused;
the one constructor is for an instruction that has no meaning yet, and no arm of `exec` uses it. -/
inductive Refusal where
  /-- Raised by `exec` for an instruction without a meaning: none. Safe. -/
  | notModelled (mnemonic : String)
  deriving DecidableEq, Repr

/-- The outcome of a step or of an instruction. -/
abbrev Outcome := Host.Outcome State Fault Refusal

/-- The machine right after reset (10_state.md R30, 70_reset_and_hazards.md R111): Running, ip 0, an
empty stack and an empty output stream. The spec gives no value for the parameters, which the host
supplies: the capacity is log 1's, the policy log 2's, the program (empty) log 3's, `draws` log 6's.
`State.boot` is the same construction for any parameters. -/
def State.reset : State where
  capacity := Config.resetCapacity
  overflowPolicy := Config.overflowPolicy
  program := { size := 0, cells := [] }
  ip := 0
  stack := []
  status := .running
  out := []
  draws := 0

end Sys2Proof.Machine
end

