-- ==== Sys2Proof/Machine/Flags.lean ====
section
/-! DEFINITION. Conditions on values. The block has no flags and no condition codes (10_state.md R19);
what other machines keep in flags is here a test on a value: the overflow check of a result, the zero
test of a divisor and of a conditional jump. With them the integer laws of 40_execution_cycle.md. -/

namespace Sys2Proof.Machine

/-- The test of JZ and JNZ, and of a divisor: the int32 value is 0 (40_execution_cycle.md R70). -/
def isZero (v : Word) : Bool := v.toInt = 0

/-- `toInt32(v)`: the int32 result of an exact integer under the overflow policy
(40_execution_cycle.md R68). -/
def toInt32 (policy : OverflowPolicy) (v : Int) : Except FaultKind Word :=
  if InInt32 v then .ok (BitVec.ofInt 32 v)
  else
    match policy with
    | .wrap => .ok (BitVec.ofInt 32 ((v + 2 ^ 31) % 2 ^ 32 - 2 ^ 31))
    | .fault => .error .arithmeticOverflow

/-- `tdiv(b, a)`: the quotient rounded toward zero (40_execution_cycle.md R69). -/
def tdiv (b a : Int) : Int := b.sign * a.sign * ((b.natAbs / a.natAbs : Nat) : Int)

/-- `trem(b, a)`: the remainder that goes with `tdiv`; its sign follows the dividend
(40_execution_cycle.md R69). -/
def trem (b a : Int) : Int := b - a * tdiv b a

/-- The check of DIV and MOD on their divisor, made after both pops (40_execution_cycle.md R72). -/
def checkDivisor (a : Word) : Except FaultKind Unit :=
  if isZero a then .error .divisionByZero else .ok ()

end Sys2Proof.Machine
end

