-- ==== Sys2Proof/Syntax.lean ====
section
/-! DEFINITION. The instructions: one constructor for each row of spec/opcode_table.json. -/

namespace Sys2Proof

/-- The sixteen instructions of 30_encoding.md R50. Only PUSH has an operand of its own, the immediate
byte of R48; every other operand comes from the stack (R47). -/
inductive Instr where
  | push (imm8 : Byte)
  | pop
  | dup
  | swap
  | add
  | sub
  | mul
  | div
  | mod
  | jmp
  | jz
  | jnz
  | nop
  | print
  | printChar
  | halt
  deriving DecidableEq, Repr

end Sys2Proof
end

