-- ==== Sys2Proof/WellFormed.lean ====
section
/-! DEFINITION. Which instructions are well formed, and the one operand check there is. -/

namespace Sys2Proof

/-- Whether an instruction is well formed. Every one is: fifteen have no fields (30_encoding.md R47),
and the immediate of PUSH is a byte with no reserved values (R53), a check that the type `Byte` makes.
An operand written as a number is checked by `Instr.pushOperand?`. -/
def Instr.wellFormed : Instr → Bool
  | .push _ => true
  | .pop => true
  | .dup => true
  | .swap => true
  | .add => true
  | .sub => true
  | .mul => true
  | .div => true
  | .mod => true
  | .jmp => true
  | .jz => true
  | .jnz => true
  | .nop => true
  | .print => true
  | .printChar => true
  | .halt => true

/-- The range of a PUSH operand written as a number: 0 to 255 (30_encoding.md R49, R57). -/
def pushOperandFits (n : Nat) : Bool := n < 256

/-- `PUSH n`, refused when `n` does not fit in the immediate byte (30_encoding.md R57). -/
def Instr.pushOperand? (n : Nat) : Option Instr :=
  if pushOperandFits n then some (.push (BitVec.ofNat 8 n)) else none

end Sys2Proof
end

