-- ==== Sys2Proof/Decode.lean ====
section
/-! DEFINITION. The decoder, total on any bytes, and the encoder (30_encoding.md). -/

namespace Sys2Proof

/-- Why bytes are no instruction: an opcode byte outside 0x01..0x10 (30_encoding.md R52), or no byte
where the opcode or PUSH's immediate should stand (20_memory.md R31). -/
inductive DecodeError where
  | invalidOpcode (b : Byte)
  | outOfBytes
  deriving DecidableEq, Repr

/-- What an opcode byte says by itself: a whole instruction of format Z, or the start of format I,
whose immediate byte follows (30_encoding.md R46). -/
inductive Operation where
  | complete (i : Instr)
  | pushOpcode
  deriving DecidableEq, Repr

/-- `Decode(b)`: the opcode map of 30_encoding.md R50, with the required fallback of R52. It is a
function of one byte alone (R55). -/
def decodeOpcode (b : Byte) : Except DecodeError Operation :=
  match b.toNat with
  | 0x01 => .ok .pushOpcode
  | 0x02 => .ok (.complete .pop)
  | 0x03 => .ok (.complete .dup)
  | 0x04 => .ok (.complete .swap)
  | 0x05 => .ok (.complete .add)
  | 0x06 => .ok (.complete .sub)
  | 0x07 => .ok (.complete .mul)
  | 0x08 => .ok (.complete .div)
  | 0x09 => .ok (.complete .mod)
  | 0x0A => .ok (.complete .jmp)
  | 0x0B => .ok (.complete .jz)
  | 0x0C => .ok (.complete .jnz)
  | 0x0D => .ok (.complete .nop)
  | 0x0E => .ok (.complete .print)
  | 0x0F => .ok (.complete .printChar)
  | 0x10 => .ok (.complete .halt)
  | _ => .error (.invalidOpcode b)

/-- The instruction at the start of a byte sequence, with the bytes after it. -/
def decode : List Byte → Except DecodeError (Instr × List Byte)
  | [] => .error .outOfBytes
  | b :: rest =>
    match decodeOpcode b with
    | .error e => .error e
    | .ok (.complete i) => .ok (i, rest)
    | .ok .pushOpcode =>
      match rest with
      | [] => .error .outOfBytes
      | imm8 :: rest' => .ok (.push imm8, rest')

/-- A byte sequence read from its start to its end as instructions, at most `fuel` of them. -/
def decodeUpTo : Nat → List Byte → Except DecodeError (List Instr)
  | _, [] => .ok []
  | 0, _ :: _ => .error .outOfBytes
  | fuel + 1, b :: bs =>
    match decode (b :: bs) with
    | .error e => .error e
    | .ok (i, rest) =>
      match decodeUpTo fuel rest with
      | .error e => .error e
      | .ok is => .ok (i :: is)

/-- A whole byte sequence as instructions, in address order; an instruction takes at least one byte, so
the length of the sequence is fuel enough. -/
def decodeProgram (bs : List Byte) : Except DecodeError (List Instr) := decodeUpTo bs.length bs

/-- `Length(op)`: 2 for PUSH and 1 for every other instruction (30_encoding.md R51). -/
def Instr.length : Instr → Nat
  | .push _ => 2
  | .pop | .dup | .swap => 1
  | .add | .sub | .mul | .div | .mod => 1
  | .jmp | .jz | .jnz => 1
  | .nop | .print | .printChar | .halt => 1

/-- The opcode byte of an instruction (30_encoding.md R50). -/
def Instr.opcode : Instr → Byte
  | .push _ => 0x01
  | .pop => 0x02
  | .dup => 0x03
  | .swap => 0x04
  | .add => 0x05
  | .sub => 0x06
  | .mul => 0x07
  | .div => 0x08
  | .mod => 0x09
  | .jmp => 0x0A
  | .jz => 0x0B
  | .jnz => 0x0C
  | .nop => 0x0D
  | .print => 0x0E
  | .printChar => 0x0F
  | .halt => 0x10

/-- The bytes of an instruction in address order: format I for PUSH (30_encoding.md R48), format Z for
every other (R47). -/
def encode : Instr → List Byte
  | .push imm8 => [Instr.opcode (.push imm8), imm8]
  | i => [i.opcode]

/-- The bytes of a sequence of instructions, each exactly its own bytes (30_encoding.md R58). -/
def encodeProgram (is : List Instr) : List Byte := is.flatMap encode

/-- The two bytes that hold an instruction whose bits are `w`, numbered as spec/opcode_table.json
numbers them: bits 7..0 are the first byte and bits 15..8 the second; every bit from `nbits` up is 0. -/
def tableBytes (nbits w : Nat) : List Byte :=
  [BitVec.ofNat 8 (w % 2 ^ nbits), BitVec.ofNat 8 (w % 2 ^ nbits / 256)]

/-- The instruction the decoder reads from the bits of an opcode-table row. -/
def decodeTableWord (nbits w : Nat) : Option Instr :=
  match decode (tableBytes nbits w) with
  | .ok (i, _) => some i
  | .error _ => none

end Sys2Proof
end

