-- ==== Sys2Proof/Machine/Ops.lean ====
section
/-! DEFINITION. The named operations over the program memory, the operand stack, the instruction
pointer and the output port; raising a fault; and how the effect of an instruction ends its step. -/

namespace Sys2Proof.Machine

/-! ### The program memory (20_memory.md) -/

/-- The byte that a list of cells holds at an address. -/
def Memory.cellAt : List Host.Cell → Nat → Byte
  | [], _ => Memory.unlisted
  | (x, v) :: cells, a => if x = a then v else Memory.cellAt cells a

/-- The program byte at an address, if the address is one of the program (20_memory.md R32). -/
def Memory.read (m : Memory) (a : Nat) : Option Byte :=
  if a < m.size then some (Memory.cellAt m.cells a) else none

/-- The cells of a byte sequence that starts at address `a`, in canonical form. -/
def Memory.cellsFrom : Nat → List Byte → List Host.Cell
  | _, [] => []
  | a, b :: bs =>
    if b = Memory.unlisted then Memory.cellsFrom (a + 1) bs
    else (a, b) :: Memory.cellsFrom (a + 1) bs

/-- The memory that holds a program given as its bytes: PROGRAM of 00_scope.md R8. -/
def Memory.ofBytes (bs : List Byte) : Memory where
  size := bs.length
  cells := Memory.cellsFrom 0 bs

/-- The program's bytes from an address to its end. -/
def Memory.bytesFrom (m : Memory) (a : Nat) : List Byte :=
  (List.range (m.size - a)).map fun k => Memory.cellAt m.cells (a + k)

/-- Cells with the byte at one address replaced, in canonical form. -/
def Memory.putCell (a : Nat) (v : Byte) : List Host.Cell → List Host.Cell
  | [] => if v = Memory.unlisted then [] else [(a, v)]
  | (x, w) :: cells =>
    if x < a then (x, w) :: Memory.putCell a v cells
    else if x = a then (if v = Memory.unlisted then cells else (a, v) :: cells)
    else if v = Memory.unlisted then (x, w) :: cells
    else (a, v) :: (x, w) :: cells

/-- Put a byte at an address, growing the program to hold that address. No instruction does this
(20_memory.md R33): it is how the outside world places a program before a run. -/
def Memory.place (m : Memory) (a : Nat) (v : Byte) : Memory where
  size := max m.size (a + 1)
  cells := Memory.putCell a v m.cells

/-- Put a sequence of bytes at an address. -/
def Memory.placeAll : Memory → Nat → List Byte → Memory
  | m, _, [] => m
  | m, a, b :: bs => Memory.placeAll (m.place a b) (a + 1) bs

/-- `MemRead(a, 1)` (20_memory.md R31): the only memory primitive, without side effects. -/
def memRead (s : State) (a : Nat) : Except FaultKind Byte :=
  match s.program.read a with
  | some b => .ok b
  | none => .error .programBoundsExceeded

/-! ### Construction of a run (70_reset_and_hazards.md R111) -/

/-- Reset for the parameters that the host supplies: every piece of state at its reset value. `draws`
is the model's own and may start anywhere (log 6). -/
def State.boot (capacity : Nat) (policy : OverflowPolicy) (program : List Byte) (draws : Nat) :
    State where
  capacity := capacity
  overflowPolicy := policy
  program := Memory.ofBytes program
  ip := 0
  stack := []
  status := .running
  out := []
  draws := draws

/-! ### The operand stack (10_state.md, 40_execution_cycle.md) -/

/-- `stack_top`, the count of live elements (10_state.md R17). -/
def State.stackTop (s : State) : Nat := s.stack.length

/-- `stack[i]`, slot 0 being the bottom (00_scope.md R11); no value at or above `stack_top`, where a
slot holds none that a program can observe (10_state.md R16). -/
def State.slot (s : State) (i : Nat) : Option Word := s.stack.reverse[i]?

/-- `push(v)` (40_execution_cycle.md R62). -/
def push (v : Word) (s : State) : Except FaultKind State :=
  if s.stackTop = s.capacity then .error .stackOverflow
  else .ok { s with stack := v :: s.stack }

/-- `pop()` (40_execution_cycle.md R63). -/
def pop (s : State) : Except FaultKind (Word × State) :=
  match s.stack with
  | [] => .error .stackUnderflow
  | v :: rest => .ok (v, { s with stack := rest })

/-! ### The instruction pointer, the engine state and the output port -/

/-- `next`: `ip <- ip + Length(op)` (40_execution_cycle.md R64). -/
def State.advance (s : State) (i : Instr) : State := { s with ip := s.ip + i.length }

/-- `jump(t)`: `ip <- t`, with no further increment (40_execution_cycle.md R65). -/
def State.jump (s : State) (target : Nat) : State := { s with ip := target }

/-- `halt`: `status <- Halted`, and `ip` keeps the address of the HALT opcode
(40_execution_cycle.md R66). -/
def State.halt (s : State) : State := { s with status := .halted }

/-- `emit(e)`: append an event to the output stream (10_state.md R25). -/
def State.emit (s : State) (e : Event) : State := { s with out := s.out ++ [e] }

/-! ### Faults (60_exceptions.md) -/

/-- The numeric code of a fault kind (60_exceptions.md R95). -/
def FaultKind.code : FaultKind → Nat
  | .stackUnderflow => 1
  | .stackOverflow => 2
  | .invalidOpcode _ => 3
  | .divisionByZero => 4
  | .invalidJumpTarget _ => 5
  | .programBoundsExceeded => 6
  | .arithmeticOverflow => 7

/-- `raise Fault(k)` in the state `s` at the start of the step (60_exceptions.md R98): the status
becomes Faulted(k) and the output stream stays as it was, since a step that faults emits nothing
(40_execution_cycle.md R73). `ip` and the stack are unspecified afterwards (60_exceptions.md R99):
free values, cut to the ranges 0 to N (10_state.md R14) and 0 to CAPACITY elements (R17). (log 6) -/
def raise (k : FaultKind) (s : State) : State :=
  { s with
    status := .faulted k
    ip := min (Config.ipAfterFault s.draws (k, s)) s.program.size
    stack := (Config.stackAfterFault s.draws (k, s)).take s.capacity
    draws := s.draws + 1 }

/-- The end of a step that began in `s`: the effect's state, or the fault it raised, taken in `s`
because nothing a faulting step did before its raise is observable (40_execution_cycle.md R73).
There is no return from a fault (60_exceptions.md R100). -/
def conclude (s : State) : Except FaultKind State → Outcome
  | .ok t => .next t
  | .error k => .next (raise k s)

/-- Why a state takes no step, if it takes none (40_execution_cycle.md R60). -/
def stopOf (s : State) : Option Fault :=
  match s.status with
  | .running => none
  | .halted => some .stepAfterHalt
  | .faulted k => some (.stepAfterFault k)

end Sys2Proof.Machine
end

