-- ==== Sys2Proof/Machine/Operands.lean ====
section
/-! DEFINITION. The operand forms. There are two sources of operands: the immediate byte of PUSH
(30_encoding.md R49) and values popped from the stack, `a` first and then `b`
(40_execution_cycle.md R71); a popped value is read as a number, as a jump target
(43_control.md R85) or as its low byte (44_system_output.md R91). -/

namespace Sys2Proof.Machine

/-- `zext_32(imm8)`: the value PUSH pushes, 0 to 255 (30_encoding.md R49). -/
def zext32 (imm8 : Byte) : Word := imm8.setWidth 32

/-- `v[7:0]`: the low 8 bits of a value, which is the value mod 256 (44_system_output.md R91). -/
def lowByte (v : Word) : Byte := v.setWidth 8

/-- The two operands of an instruction that pops `a` (the top) and then `b`, and the state after both
pops. -/
def pop2 (s : State) : Except FaultKind (Word × Word × State) := do
  let (a, s₁) ← pop s
  let (b, s₂) ← pop s₁
  return (a, b, s₂)

/-- `CheckTarget(t)` (43_control.md R85): a target is an absolute program address, `0 ≤ t < N`. -/
def checkTarget (s : State) (t : Word) : Except FaultKind Nat :=
  if t.toInt < 0 ∨ t.toInt ≥ s.program.size then .error (.invalidJumpTarget t)
  else .ok t.toInt.toNat

end Sys2Proof.Machine
end

