-- ==== Sys2Proof/Machine/Arith.lean ====
section
/-! DEFINITION. Integer arithmetic: ADD, SUB, MUL, DIV, MOD (42_arithmetic.md). -/

namespace Sys2Proof.Machine

/-- What the five share: pop `a`, pop `b`, compute the result (which may raise a fault), push it, and
advance (40_execution_cycle.md R72). The first argument of `op` is `b`, pushed earlier. -/
def binary (i : Instr) (op : Word → Word → Except FaultKind Word) (s : State) : Outcome :=
  conclude s do
    let (a, b, s₁) ← pop2 s
    let v ← op b a
    let t ← push v s₁
    return t.advance i

/-- ADD (42_arithmetic.md R80). -/
def execAdd (s : State) : Outcome :=
  binary .add (fun b a => toInt32 s.overflowPolicy (b.toInt + a.toInt)) s

/-- SUB (42_arithmetic.md R81): the value pushed earlier is the minuend. -/
def execSub (s : State) : Outcome :=
  binary .sub (fun b a => toInt32 s.overflowPolicy (b.toInt - a.toInt)) s

/-- MUL (42_arithmetic.md R82). -/
def execMul (s : State) : Outcome :=
  binary .mul (fun b a => toInt32 s.overflowPolicy (b.toInt * a.toInt)) s

/-- DIV (42_arithmetic.md R83): the value pushed earlier is the dividend. -/
def execDiv (s : State) : Outcome :=
  binary .div (fun b a => do
    checkDivisor a
    toInt32 s.overflowPolicy (tdiv b.toInt a.toInt)) s

/-- MOD (42_arithmetic.md R84). The remainder is always in range, so no overflow policy applies. -/
def execMod (s : State) : Outcome :=
  binary .mod (fun b a => do
    checkDivisor a
    return BitVec.ofInt 32 (trem b.toInt a.toInt)) s

end Sys2Proof.Machine
end

