-- ==== Sys2Proof/Machine/Control.lean ====
section
/-! DEFINITION. Control transfer: JMP, JZ, JNZ (43_control.md). -/

namespace Sys2Proof.Machine

/-- JMP (43_control.md R86). -/
def execJmp (s : State) : Outcome :=
  conclude s do
    let (t, s₁) ← pop s
    let target ← checkTarget s₁ t
    return s₁.jump target

/-- What JZ and JNZ share: pop the target, pop the value, check the target whether or not the jump is
taken (43_control.md R85), and jump exactly when the condition holds of the value. -/
def jumpIf (i : Instr) (condition : Word → Bool) (s : State) : Outcome :=
  conclude s do
    let (t, v, s₁) ← pop2 s
    let target ← checkTarget s₁ t
    return if condition v then s₁.jump target else s₁.advance i

/-- JZ (43_control.md R87). -/
def execJz (s : State) : Outcome := jumpIf .jz (fun v => isZero v) s

/-- JNZ (43_control.md R88). -/
def execJnz (s : State) : Outcome := jumpIf .jnz (fun v => !isZero v) s

end Sys2Proof.Machine
end

