-- ==== Sys2Proof/Machine/Stack.lean ====
section
/-! DEFINITION. Stack manipulation: PUSH, POP, DUP, SWAP (41_stack.md). -/

namespace Sys2Proof.Machine

/-- PUSH (41_stack.md R76). Its immediate was read by `fetch`, at `ip + 1`. -/
def execPush (imm8 : Byte) (s : State) : Outcome :=
  conclude s do
    let t ← push (zext32 imm8) s
    return t.advance (.push imm8)

/-- POP (41_stack.md R77). -/
def execPop (s : State) : Outcome :=
  conclude s do
    let (_, t) ← pop s
    return t.advance .pop

/-- DUP (41_stack.md R78): one pop and two pushes, the second of which may overflow. -/
def execDup (s : State) : Outcome :=
  conclude s do
    let (x, s₁) ← pop s
    let s₂ ← push x s₁
    let t ← push x s₂
    return t.advance .dup

/-- SWAP (41_stack.md R79). -/
def execSwap (s : State) : Outcome :=
  conclude s do
    let (a, b, s₁) ← pop2 s
    let s₂ ← push a s₁
    let t ← push b s₂
    return t.advance .swap

end Sys2Proof.Machine
end

