-- ==== Sys2Proof/Machine/System.lean ====
section
/-! DEFINITION. No-op, output and halt: NOP, PRINT, PRINT_CHAR, HALT (44_system_output.md). -/

namespace Sys2Proof.Machine

/-- NOP (44_system_output.md R89). -/
def execNop (s : State) : Outcome := conclude s (.ok (s.advance .nop))

/-- What PRINT and PRINT_CHAR share: pop a value, emit one event, advance. -/
def output (i : Instr) (event : Word → Event) (s : State) : Outcome :=
  conclude s do
    let (v, s₁) ← pop s
    return (s₁.emit (event v)).advance i

/-- PRINT (44_system_output.md R90). -/
def execPrint (s : State) : Outcome := output .print (fun v => .emitNumber v) s

/-- PRINT_CHAR (44_system_output.md R91). -/
def execPrintChar (s : State) : Outcome := output .printChar (fun v => .emitByte (lowByte v)) s

/-- HALT (44_system_output.md R92). -/
def execHalt (s : State) : Outcome := conclude s (.ok s.halt)

end Sys2Proof.Machine
end

