-- ==== Sys2Proof/Machine/Dispatch.lean ====
section
/-! DEFINITION. The meaning of each instruction, one arm per constructor of Instr. -/

namespace Sys2Proof.Machine

def exec (i : Instr) (s : State) : Host.Outcome State Fault Refusal :=
  match i with
  -- 41_stack.md
  | .push imm8 => Sys2Proof.Machine.execPush imm8 s
  | .pop => Sys2Proof.Machine.execPop s
  | .dup => Sys2Proof.Machine.execDup s
  | .swap => Sys2Proof.Machine.execSwap s
  -- 42_arithmetic.md
  | .add => Sys2Proof.Machine.execAdd s
  | .sub => Sys2Proof.Machine.execSub s
  | .mul => Sys2Proof.Machine.execMul s
  | .div => Sys2Proof.Machine.execDiv s
  | .mod => Sys2Proof.Machine.execMod s
  -- 43_control.md
  | .jmp => Sys2Proof.Machine.execJmp s
  | .jz => Sys2Proof.Machine.execJz s
  | .jnz => Sys2Proof.Machine.execJnz s
  -- 44_system_output.md
  | .nop => Sys2Proof.Machine.execNop s
  | .print => Sys2Proof.Machine.execPrint s
  | .printChar => Sys2Proof.Machine.execPrintChar s
  | .halt => Sys2Proof.Machine.execHalt s

end Sys2Proof.Machine
end

