-- ==== Sys2Proof/Machine/Fetch.lean ====
section
/-! DEFINITION. The first part of a step: fetch the opcode, decode it, and fetch PUSH's immediate
(40_execution_cycle.md R61, R72 items 1 to 3). -/

namespace Sys2Proof.Machine

/-- The fault that a byte sequence which is no instruction raises: InvalidOpcode with the byte
(30_encoding.md R52), or ProgramBoundsExceeded where the program ends (20_memory.md R31). -/
def faultOfDecodeError : DecodeError → FaultKind
  | .invalidOpcode b => .invalidOpcode b
  | .outOfBytes => .programBoundsExceeded

/-- The instruction at `ip`, or the fault its fetch raises. The immediate of a PUSH is read at
`ip + 1`, before any check of the stack (41_stack.md R76). -/
def fetch (s : State) : Except FaultKind Instr := do
  let b ← memRead s s.ip
  match decodeOpcode b with
  | .error e => throw (faultOfDecodeError e)
  | .ok (.complete i) => return i
  | .ok .pushOpcode =>
    let imm8 ← memRead s (s.ip + 1)
    return .push imm8

end Sys2Proof.Machine
end

