-- ==== Sys2Proof/Machine/Step.lean ====
section
/-! DEFINITION. One step of the engine (40_execution_cycle.md R61), and how an instruction is placed
where the next step fetches. -/

namespace Sys2Proof.Machine

/-- One step: nothing is defined unless the status is Running (R60); then fetch and decode at `ip`,
whose faults end the step, and run the instruction. -/
def step (s : State) : Host.Outcome State Fault Refusal :=
  match stopOf s with
  | some f => .fault f
  | none =>
    match fetch s with
    | .error k => conclude s (.error k)
    | .ok i => exec i s

/-- The state with an instruction's bytes placed at `ip`, where the next step fetches, and with the
status Running, without which no step fetches. It stands for the host that supplies a program before a
run (log 3). -/
def State.withFetchWord (s : State) (nbits w : Nat) : State :=
  { s with program := s.program.placeAll s.ip (tableBytes nbits w), status := .running }

end Sys2Proof.Machine
end

