-- ==== Sys2Proof/Machine/Sink.lean ====
section
/-! DEFINITION. The Output Sink's contract: how it renders the events it receives
(44_system_output.md R93). It is outside the core (00_scope.md R5): no step uses this file. (log 9) -/

namespace Sys2Proof.Machine

/-- The decimal digits of a number as ASCII codes, at most `places` of them, with no leading zero and
`0` for zero. -/
def Sink.digits : Nat → Nat → List Byte
  | 0, _ => []
  | places + 1, n =>
    if n < 10 then [BitVec.ofNat 8 (0x30 + n)]
    else Sink.digits places (n / 10) ++ [BitVec.ofNat 8 (0x30 + n % 10)]

/-- An int32 as text: `-` exactly when it is negative, its decimal digits (ten are enough for 2^31),
and the line feed. -/
def Sink.number (v : Word) : List Byte :=
  (if v.toInt < 0 then [0x2D] else []) ++ Sink.digits 10 v.toInt.natAbs ++ [0x0A]

/-- The bytes the sink renders for one event: text and a line terminator for a number, the raw byte
for a byte. -/
def Sink.event : Event → List Byte
  | .emitNumber v => Sink.number v
  | .emitByte b => [b]

/-- The bytes the sink renders for an output stream, in emission order (44_system_output.md R94). -/
def Sink.render (out : List Event) : List Byte := out.flatMap Sink.event

end Sys2Proof.Machine
end

