-- ==== Sys2Proof/Safety.lean ====
section
/-! DEFINITION. The terms in which claims about the machine are stated: the invariant of a run, an
ended run, an instruction or a step that faults, and what each instruction pops, pushes and may
raise. -/

namespace Sys2Proof.Machine

/-- The invariant of every state a run reaches: `0 ≤ ip ≤ N` and `0 ≤ stack_top ≤ CAPACITY`
(40_execution_cycle.md R74), with the program in its canonical form (log 4). -/
structure State.Inv (s : State) : Prop where
  ip_le : s.ip ≤ s.program.size
  stack_le : s.stackTop ≤ s.capacity
  program_wf : s.program.wf

/-- A run has ended: its status is Halted or Faulted (70_reset_and_hazards.md R117). -/
def State.Ended (s : State) : Prop := s.status = .halted ∨ ∃ k, s.status = .faulted k

/-- A safe state: no fault has been raised in its run (60_exceptions.md R99). -/
def State.Safe (s : State) : Prop := ∀ k, s.status ≠ .faulted k

/-- What is exact after a fault (60_exceptions.md R99): the fault record and the output stream, which
the faulting step did not touch. The parameters of the run do not change either (10_state.md R28).
Nothing is said of `ip` and the stack. -/
structure FaultedFrom (s t : State) (k : FaultKind) : Prop where
  status : t.status = .faulted k
  out : t.out = s.out
  capacity : t.capacity = s.capacity
  overflowPolicy : t.overflowPolicy = s.overflowPolicy
  program : t.program = s.program

/-- Two states agree in all that is specified of them: the status with its fault record and the output
stream, and, unless a fault has been raised, `ip` and the stack (10_state.md R24, 60_exceptions.md
R99). Their parameters may differ. -/
structure Agree (s t : State) : Prop where
  status : t.status = s.status
  out : t.out = s.out
  ip : s.Safe → t.ip = s.ip
  stack : s.Safe → t.stack = s.stack

/-- The instruction raises the fault `k` in the state `s`. -/
def FaultsWith (i : Instr) (s : State) (k : FaultKind) : Prop :=
  ∃ t, exec i s = .next t ∧ FaultedFrom s t k

/-- The step from `s` raises the fault `k`. -/
def StepFaultsWith (s : State) (k : FaultKind) : Prop :=
  ∃ t, step s = .next t ∧ FaultedFrom s t k

end Sys2Proof.Machine

namespace Sys2Proof

open Sys2Proof.Machine

/-- How many values an instruction pops (the operands of R76 to R92). -/
def Instr.pops : Instr → Nat
  | .push _ | .nop | .halt => 0
  | .pop | .dup | .jmp | .print | .printChar => 1
  | .swap | .add | .sub | .mul | .div | .mod | .jz | .jnz => 2

/-- How many values an instruction pushes (the operands of R76 to R92). -/
def Instr.pushes : Instr → Nat
  | .pop | .jmp | .jz | .jnz | .nop | .print | .printChar | .halt => 0
  | .push _ | .add | .sub | .mul | .div | .mod => 1
  | .dup | .swap => 2

/-- The two instructions that reach the output port (44_system_output.md). -/
def Instr.emits : Instr → Bool
  | .print | .printChar => true
  | .push _ | .pop | .dup | .swap => false
  | .add | .sub | .mul | .div | .mod => false
  | .jmp | .jz | .jnz | .nop | .halt => false

/-- Whether the instruction takes its jump in the state: a JMP, or a JZ or JNZ whose condition holds of
the value below the target (00_scope.md R13, "Taken jump"). -/
def Instr.takesJump (i : Instr) (s : State) : Prop :=
  i = .jmp ∨
  (i = .jz ∧ ∃ t v rest, s.stack = t :: v :: rest ∧ v.toInt = 0) ∨
  (i = .jnz ∧ ∃ t v rest, s.stack = t :: v :: rest ∧ v.toInt ≠ 0)

/-- The column "raised by" of the table of 60_exceptions.md R95, for the faults of an instruction's
effect (InvalidOpcode and ProgramBoundsExceeded are the fetch's). -/
def Instr.mayRaise (i : Instr) : FaultKind → Prop
  | .stackUnderflow =>
    i ∈ [.pop, .dup, .swap, .add, .sub, .mul, .div, .mod, .jmp, .jz, .jnz, .print, .printChar]
  | .stackOverflow => i = .dup ∨ ∃ imm8, i = .push imm8
  | .invalidOpcode _ => False
  | .divisionByZero => i = .div ∨ i = .mod
  | .invalidJumpTarget _ => i = .jmp ∨ i = .jz ∨ i = .jnz
  | .programBoundsExceeded => False
  | .arithmeticOverflow => i = .add ∨ i = .sub ∨ i = .mul ∨ i = .div

end Sys2Proof
end

