-- ==== Sys2Proof/Certificates/Slice0/Obligations.lean ====
section
/-! DEFINITION. The statements for the provers. Stacks are written top first, as `State.stack` holds
them (log 5); `a` is the first value an instruction pops and `b` the second (40_execution_cycle.md
R71). A statement about an instruction that completes gives the whole next state, so it also says what
stays unchanged: every field that the record does not name. -/

open Sys2Proof Sys2Proof.Machine

/-! ### Reset and the invariant -/

/-- 70_reset_and_hazards.md R111: what the construction of a run leaves, for every capacity, policy and
program the host may supply: Running, ip 0, an empty stack, an empty output stream, no fault record,
and the program's bytes in memory. -/
def Obligations.BootLeavesEveryPieceOfStateAtItsResetValue : Prop :=
  ∀ (cap : Nat) (pol : OverflowPolicy) (prog : List Byte) (d : Nat),
    (State.boot cap pol prog d).status = .running ∧
    (State.boot cap pol prog d).ip = 0 ∧
    (State.boot cap pol prog d).stackTop = 0 ∧
    (∀ i, (State.boot cap pol prog d).slot i = none) ∧
    (State.boot cap pol prog d).out = [] ∧
    (State.boot cap pol prog d).Safe ∧
    (State.boot cap pol prog d).capacity = cap ∧
    (State.boot cap pol prog d).overflowPolicy = pol ∧
    (State.boot cap pol prog d).program.size = prog.length ∧
    ∀ a, (State.boot cap pol prog d).program.read a = prog[a]?

/-- Reset and every construction of a run satisfy the invariant of 40_execution_cycle.md R74; the
canonical form of the program is the model's own (log 4). -/
def Obligations.ResetSatisfiesTheInvariant : Prop :=
  State.reset.Inv ∧ ∀ cap pol prog d, (State.boot cap pol prog d).Inv

/-- 40_execution_cycle.md R74: every step from a state with `0 ≤ ip ≤ N` and
`0 ≤ stack_top ≤ CAPACITY` gives such a state. After a fault `ip` and the stack are free values within
these ranges, which is the model's reading of R99 (log 6). -/
def Obligations.EveryStepKeepsTheInvariant : Prop :=
  ∀ s t : State, s.Inv → step s = .next t → t.Inv

/-- Along every run, from every construction of it (R74, R28, R45): the bounds hold, the capacity, the
policy and every program byte stay as the host supplied them, the output holds at most one event for
each step, and only a fault draws free values. R74 gives the bounds of states before a fault; that they
hold in faulted states too, where R99 calls `ip` and the stack unspecified, is the model's reading, and
the draws are the model's own (both log 6). -/
def Obligations.EveryRunStaysInBoundsAndKeepsItsProgram : Prop :=
  ∀ cap pol prog d k (t : State), core.run k (State.boot cap pol prog d) = .next t →
    t.ip ≤ prog.length ∧ t.stackTop ≤ cap ∧ t.capacity = cap ∧ t.overflowPolicy = pol ∧
    t.program.size = prog.length ∧ (∀ a, t.program.read a = prog[a]?) ∧ t.out.length ≤ k ∧
    (t.Safe → t.draws = d)

/-- R25, R45, R67: over any number of steps from any state, the output stream is only ever appended to,
by at most one event a step. -/
def Obligations.RunsOnlyAppendToTheOutput : Prop :=
  ∀ k (s t : State), core.run k s = .next t →
    ∃ events, t.out = s.out ++ events ∧ events.length ≤ k

/-! ### Encoding -/

/-- 30_encoding.md R50: the opcode map, all sixteen rows, with the bytes written out from the table; all
8 bits of the opcode byte take part, so every other byte is no opcode. -/
def Obligations.OpcodeMapIsTheTable : Prop :=
  (∀ imm8 : Byte, decode [0x01, imm8] = .ok (.push imm8, [])) ∧
  decode [0x02] = .ok (.pop, []) ∧
  decode [0x03] = .ok (.dup, []) ∧
  decode [0x04] = .ok (.swap, []) ∧
  decode [0x05] = .ok (.add, []) ∧
  decode [0x06] = .ok (.sub, []) ∧
  decode [0x07] = .ok (.mul, []) ∧
  decode [0x08] = .ok (.div, []) ∧
  decode [0x09] = .ok (.mod, []) ∧
  decode [0x0A] = .ok (.jmp, []) ∧
  decode [0x0B] = .ok (.jz, []) ∧
  decode [0x0C] = .ok (.jnz, []) ∧
  decode [0x0D] = .ok (.nop, []) ∧
  decode [0x0E] = .ok (.print, []) ∧
  decode [0x0F] = .ok (.printChar, []) ∧
  decode [0x10] = .ok (.halt, []) ∧
  ∀ b : Byte, b ∉ [0x01, 0x02, 0x03, 0x04, 0x05, 0x06, 0x07, 0x08, 0x09, 0x0A, 0x0B, 0x0C, 0x0D, 0x0E,
    0x0F, 0x10] → decodeOpcode b = .error (.invalidOpcode b)

/-- Decoding and encoding are inverse on single instructions (R46 to R50): bytes decode to an
instruction and a rest exactly when they are its encoding followed by the rest, so every operand bit is
kept and every instruction has one encoding. -/
def Obligations.DecodeAnswersExactlyTheEncodedInstruction : Prop :=
  ∀ bs i rest, decode bs = .ok (i, rest) ↔ bs = encode i ++ rest

/-- Decoding and encoding agree on whole programs (R50, R54, R58): the bytes of any sequence of
well-formed instructions decode to that sequence, and bytes that decode to a sequence are its bytes. -/
def Obligations.ProgramsDecodeToWhatTheyEncode : Prop :=
  (∀ is : List Instr, (∀ i ∈ is, i.wellFormed = true) →
    decodeProgram (encodeProgram is) = .ok is) ∧
  (∀ bs is, decodeProgram bs = .ok is → encodeProgram is = bs)

/-- 30_encoding.md R51: the length is 2 for opcode 0x01 and 1 for every other valid opcode, it depends
on the opcode byte alone, an invalid opcode has none but faults, decoding takes exactly that many bytes,
and a step that neither takes a jump nor halts advances `ip` by it. -/
def Obligations.LengthFollowsFromTheOpcodeByte : Prop :=
  (∀ b rest i rest', decode (b :: rest) = .ok (i, rest') →
    i.length = (if b = 0x01 then 2 else 1) ∧ (b :: rest).length = i.length + rest'.length) ∧
  (∀ b : Byte, (b.toNat = 0 ∨ 0x11 ≤ b.toNat) →
    (∀ rest, decode (b :: rest) = .error (.invalidOpcode b)) ∧
    ∀ s : State, s.status = .running → memRead s s.ip = .ok b → StepFaultsWith s (.invalidOpcode b)) ∧
  (∀ (s t : State) b i, memRead s s.ip = .ok b → step s = .next t → t.Safe → fetch s = .ok i →
    ¬i.takesJump s → i ≠ .halt → t.ip = s.ip + (if b = 0x01 then 2 else 1))

/-- 30_encoding.md R52: exactly the byte values 0x00 and 0x11 to 0xFF, 240 of them, are not opcodes, and
a step that fetches such a byte faults with InvalidOpcode and that byte, whatever else the state holds;
nothing is emitted. -/
def Obligations.IllegalBytesFaultWithInvalidOpcode : Prop :=
  (∀ b : Byte, decodeOpcode b = .error (.invalidOpcode b) ↔ (b.toNat = 0 ∨ 0x11 ≤ b.toNat)) ∧
  ((List.range 256).filter fun n => n = 0 ∨ 0x11 ≤ n).length = 240 ∧
  (∀ (s : State) b, s.status = .running → memRead s s.ip = .ok b → (b.toNat = 0 ∨ 0x11 ≤ b.toNat) →
    StepFaultsWith s (.invalidOpcode b))

/-! ### The step -/

/-- 40_execution_cycle.md R61: in Running, when the program's bytes from `ip` on decode to an
instruction, the step is that instruction's meaning in the same state; when they do not, the step
raises the decoder's fault. That bytes which end inside a PUSH raise ProgramBoundsExceeded also on a full
stack, the immediate being read before the stack is checked, is the order of R72 and 41_stack.md R76, the
spec's decision D10 (log 11). -/
def Obligations.StepRunsTheDecodedInstruction : Prop :=
  (∀ (s : State) i rest, s.status = .running → decode (s.program.bytesFrom s.ip) = .ok (i, rest) →
    i.wellFormed = true → step s = exec i s) ∧
  (∀ (s : State) b, s.status = .running →
    decode (s.program.bytesFrom s.ip) = .error (.invalidOpcode b) →
    StepFaultsWith s (.invalidOpcode b)) ∧
  (∀ s : State, s.status = .running → decode (s.program.bytesFrom s.ip) = .error .outOfBytes →
    StepFaultsWith s .programBoundsExceeded)

/-- R36, R54, R61: an instruction that stands anywhere in a program is run when `ip` is its address,
whatever bytes stand before and after it. -/
def Obligations.AnInstructionRunsWhereverItStands : Prop :=
  ∀ (s : State) pre i post, s.status = .running → s.program = Memory.ofBytes (pre ++ encode i ++ post) →
    s.ip = pre.length → step s = exec i s

/-- The interface by which a program is placed (log 3): the next step after `withFetchWord` runs the
instruction that the decoder reads from the word. -/
def Obligations.APlacedWordIsTheNextInstruction : Prop :=
  ∀ (s : State) nbits w i, s.program.wf → decodeTableWord nbits w = some i →
    step (s.withFetchWord nbits w) = exec i (s.withFetchWord nbits w)

/-- 20_memory.md R31: MemRead answers the program's byte below N and faults from N on; so the fetch of
an opcode past the end, and of the immediate of a PUSH that is the last byte, raise
ProgramBoundsExceeded. That the second does so whatever the stack holds, a full one included, is the order
of 40_execution_cycle.md R72 and 41_stack.md R76, the spec's decision D10 (log 8, log 11). -/
def Obligations.ReadingPastTheEndOfTheProgramFaults : Prop :=
  (∀ cap pol prog d a, a < prog.length →
    memRead (State.boot cap pol prog d) a = .ok (prog.getD a 0)) ∧
  (∀ (s : State) a, s.program.size ≤ a → memRead s a = .error .programBoundsExceeded) ∧
  (∀ s : State, s.status = .running → s.program.size ≤ s.ip → StepFaultsWith s .programBoundsExceeded) ∧
  (∀ s : State, s.status = .running → memRead s s.ip = .ok 0x01 → s.program.size ≤ s.ip + 1 →
    StepFaultsWith s .programBoundsExceeded)

/-- 40_execution_cycle.md R60: a step is defined exactly in Running; in Halted and Faulted there is
none. -/
def Obligations.AStepIsTakenExactlyInRunning : Prop :=
  ∀ s : State, (∃ t, step s = .next t) ↔ s.status = .running

/-- How the model says that an ended run takes no step (log 7): a fault of the model, by name. -/
def Obligations.AnEndedRunStopsByName : Prop :=
  (∀ s : State, s.status = .halted → step s = .fault .stepAfterHalt) ∧
  (∀ (s : State) k, s.status = .faulted k → step s = .fault (.stepAfterFault k))

/-- 40_execution_cycle.md R64: after an instruction that neither takes a jump nor halts, the new `ip` is
`ip + 2` for PUSH and `ip + 1` for every other; it is not checked, and when it equals N the next step
faults with ProgramBoundsExceeded. -/
def Obligations.SequentialAdvanceIsByTheLength : Prop :=
  ∀ (s t : State) i, step s = .next t → t.Safe → fetch s = .ok i → ¬i.takesJump s → i ≠ .halt →
    (∀ imm8 : Byte, i = .push imm8 → t.ip = s.ip + 2) ∧
    ((∀ imm8 : Byte, i ≠ .push imm8) → t.ip = s.ip + 1) ∧
    (t.ip = t.program.size → StepFaultsWith t .programBoundsExceeded)

/-- 40_execution_cycle.md R65: a taken jump sets `ip` to the popped target itself, with no increment and
no compensation. That the target lies in `0 ≤ t < N` is the check of 43_control.md R85, the spec's
decision D9 (log 8). -/
def Obligations.TakenJumpInstallsExactlyTheTarget : Prop :=
  ∀ (s t : State) i, step s = .next t → t.Safe → fetch s = .ok i → i.takesJump s →
    ∃ target rest, s.stack = target :: rest ∧ 0 ≤ target.toInt ∧ (t.ip : Int) = target.toInt ∧
      t.ip < t.program.size

/-! ### The stack primitives and the integer laws -/

/-- 40_execution_cycle.md R62: push writes slot `stack_top` and increments `stack_top`, leaving every
slot below and every other piece of state alone, and fails with StackOverflow exactly at CAPACITY; with
CAPACITY 0 every push to an empty stack fails. -/
def Obligations.PushWritesTheNextSlotOrOverflows : Prop :=
  (∀ v (s : State), s.stackTop = s.capacity → push v s = .error .stackOverflow) ∧
  (∀ v (s : State), s.stackTop ≠ s.capacity → ∃ t, push v s = .ok t ∧
    t.slot s.stackTop = some v ∧ t.stackTop = s.stackTop + 1 ∧
    (∀ i, i < s.stackTop → t.slot i = s.slot i) ∧ { t with stack := s.stack } = s) ∧
  (∀ v (s : State), s.capacity = 0 → s.stackTop ≤ s.capacity → push v s = .error .stackOverflow)

/-- 40_execution_cycle.md R63: pop answers the value of slot `stack_top - 1` and decrements `stack_top`,
leaving every lower slot and every other piece of state alone, and fails with StackUnderflow exactly on
the empty stack; a pop after a push answers the value pushed and restores the state. -/
def Obligations.PopReturnsTheTopSlotOrUnderflows : Prop :=
  (∀ s : State, s.stackTop = 0 → pop s = .error .stackUnderflow) ∧
  (∀ s : State, s.stackTop ≠ 0 → ∃ v t, pop s = .ok (v, t) ∧
    s.slot (s.stackTop - 1) = some v ∧ t.stackTop = s.stackTop - 1 ∧
    (∀ i, i < t.stackTop → t.slot i = s.slot i) ∧ { t with stack := s.stack } = s) ∧
  (∀ v (s t : State), push v s = .ok t → pop t = .ok (v, s))

/-- 40_execution_cycle.md R68 (OVERFLOW_POLICY is the spec's OPEN parameter D7): an integer in the int32
range is its own result under both policies; outside it the result is the two's-complement wrap, or the
fault ArithmeticOverflow. -/
def Obligations.ResultsAreExactWrappedOrOverflow : Prop :=
  (∀ pol v, InInt32 v → ∃ r, toInt32 pol v = .ok r ∧ r.toInt = v) ∧
  (∀ v, ¬InInt32 v →
    (∃ r, toInt32 .wrap v = .ok r ∧ r.toInt = (v + 2 ^ 31) % 2 ^ 32 - 2 ^ 31) ∧
    toInt32 .fault v = .error .arithmeticOverflow)

/-- 40_execution_cycle.md R69 (the spec's decision D8): division truncates toward zero and the remainder
is 0 or has the sign of the dividend; of int32 operands only -2^31 / -1 leaves the int32 range, and no
remainder does. -/
def Obligations.DivisionTruncatesAndRemainderFollowsTheDividend : Prop :=
  (∀ b a : Int, a ≠ 0 →
    a * tdiv b a + trem b a = b ∧ (trem b a).natAbs < a.natAbs ∧
    (trem b a = 0 ∨ (trem b a).sign = b.sign) ∧ (tdiv b a).natAbs = b.natAbs / a.natAbs ∧
    (tdiv b a = 0 ∨ (tdiv b a).sign = b.sign * a.sign)) ∧
  (∀ b a : Word, a.toInt ≠ 0 → InInt32 (trem b.toInt a.toInt) ∧
    (InInt32 (tdiv b.toInt a.toInt) ↔ ¬(b.toInt = int32Min ∧ a.toInt = -1))) ∧
  tdiv int32Min (-1) = 2 ^ 31 ∧ trem int32Min (-1) = 0

/-! ### The instructions: stack manipulation -/

/-- PUSH (41_stack.md; zero extension is the spec's decision D6, the order of its two faults D10). -/
def Obligations.PushPushesItsZeroExtendedImmediate : Prop :=
  (∀ imm8 : Byte, encode (.push imm8) = [0x01, imm8]) ∧
  (∀ (s : State) (imm8 : Byte), s.stackTop < s.capacity → ∃ v : Word, v.toInt = (imm8.toNat : Int) ∧
    exec (.push imm8) s = .next { s with stack := v :: s.stack, ip := s.ip + 2 }) ∧
  (∀ (s : State) (imm8 : Byte), s.stackTop = s.capacity → FaultsWith (.push imm8) s .stackOverflow) ∧
  (∀ (s : State) (imm8 : Byte), s.status = .running → memRead s s.ip = .ok 0x01 → memRead s (s.ip + 1) = .ok imm8 →
    step s = exec (.push imm8) s) ∧
  (∀ s : State, s.status = .running → memRead s s.ip = .ok 0x01 → s.ip + 1 = s.program.size →
    StepFaultsWith s .programBoundsExceeded)

/-- POP (41_stack.md R77). -/
def Obligations.PopDiscardsTheTopValue : Prop :=
  encode .pop = [0x02] ∧
  (∀ (s : State) (a : Word) rest, s.stack = a :: rest →
    exec .pop s = .next { s with stack := rest, ip := s.ip + 1 }) ∧
  (∀ s : State, s.stackTop = 0 → FaultsWith .pop s .stackUnderflow)

/-- DUP (41_stack.md R78, which the spec derives from R62 and R63). -/
def Obligations.DupDuplicatesTheTopValue : Prop :=
  encode .dup = [0x03] ∧
  (∀ (s : State) (x : Word) rest, s.stack = x :: rest → s.stackTop < s.capacity →
    exec .dup s = .next { s with stack := x :: x :: rest, ip := s.ip + 1 }) ∧
  (∀ s : State, s.stackTop = 0 → FaultsWith .dup s .stackUnderflow) ∧
  (∀ (s : State) (x : Word) rest, s.stack = x :: rest → s.stackTop = s.capacity → FaultsWith .dup s .stackOverflow)

/-- SWAP (41_stack.md R79): it exchanges the two top values, also on a full stack, and so twice in a row
restores the stack. -/
def Obligations.SwapExchangesTheTwoTopValues : Prop :=
  encode .swap = [0x04] ∧
  (∀ (s : State) (a b : Word) rest, s.stack = a :: b :: rest → s.stackTop ≤ s.capacity →
    exec .swap s = .next { s with stack := b :: a :: rest, ip := s.ip + 1 }) ∧
  (∀ s : State, s.stackTop < 2 → FaultsWith .swap s .stackUnderflow) ∧
  (∀ (s t u : State) (a b : Word) rest, s.stack = a :: b :: rest → s.stackTop ≤ s.capacity →
    exec .swap s = .next t → exec .swap t = .next u → u.stack = s.stack)

/-! ### The instructions: integer arithmetic -/

/-- ADD (42_arithmetic.md), under both values of OVERFLOW_POLICY (the spec's OPEN parameter D7). -/
def Obligations.AddPushesTheSum : Prop :=
  encode .add = [0x05] ∧
  (∀ (s : State) (a b : Word) rest, s.stack = a :: b :: rest → s.stackTop ≤ s.capacity →
    InInt32 (b.toInt + a.toInt) → ∃ v : Word, v.toInt = b.toInt + a.toInt ∧
      exec .add s = .next { s with stack := v :: rest, ip := s.ip + 1 }) ∧
  (∀ (s : State) (a b : Word) rest, s.stack = a :: b :: rest → s.stackTop ≤ s.capacity → s.overflowPolicy = .wrap →
    ∃ v : Word, v.toInt = (b.toInt + a.toInt + 2 ^ 31) % 2 ^ 32 - 2 ^ 31 ∧
      exec .add s = .next { s with stack := v :: rest, ip := s.ip + 1 }) ∧
  (∀ (s : State) (a b : Word) rest, s.stack = a :: b :: rest → s.overflowPolicy = .fault →
    ¬InInt32 (b.toInt + a.toInt) → FaultsWith .add s .arithmeticOverflow) ∧
  (∀ s : State, s.stackTop < 2 → FaultsWith .add s .stackUnderflow)

/-- SUB (42_arithmetic.md; OVERFLOW_POLICY is D7's): the value pushed earlier is the minuend. -/
def Obligations.SubPushesTheDifference : Prop :=
  encode .sub = [0x06] ∧
  (∀ (s : State) (a b : Word) rest, s.stack = a :: b :: rest → s.stackTop ≤ s.capacity →
    InInt32 (b.toInt - a.toInt) → ∃ v : Word, v.toInt = b.toInt - a.toInt ∧
      exec .sub s = .next { s with stack := v :: rest, ip := s.ip + 1 }) ∧
  (∀ (s : State) (a b : Word) rest, s.stack = a :: b :: rest → s.stackTop ≤ s.capacity → s.overflowPolicy = .wrap →
    ∃ v : Word, v.toInt = (b.toInt - a.toInt + 2 ^ 31) % 2 ^ 32 - 2 ^ 31 ∧
      exec .sub s = .next { s with stack := v :: rest, ip := s.ip + 1 }) ∧
  (∀ (s : State) (a b : Word) rest, s.stack = a :: b :: rest → s.overflowPolicy = .fault →
    ¬InInt32 (b.toInt - a.toInt) → FaultsWith .sub s .arithmeticOverflow) ∧
  (∀ s : State, s.stackTop < 2 → FaultsWith .sub s .stackUnderflow)

/-- MUL (42_arithmetic.md; OVERFLOW_POLICY is D7's): the low 32 bits of the exact product under Wrap. -/
def Obligations.MulPushesTheProduct : Prop :=
  encode .mul = [0x07] ∧
  (∀ (s : State) (a b : Word) rest, s.stack = a :: b :: rest → s.stackTop ≤ s.capacity →
    InInt32 (b.toInt * a.toInt) → ∃ v : Word, v.toInt = b.toInt * a.toInt ∧
      exec .mul s = .next { s with stack := v :: rest, ip := s.ip + 1 }) ∧
  (∀ (s : State) (a b : Word) rest, s.stack = a :: b :: rest → s.stackTop ≤ s.capacity → s.overflowPolicy = .wrap →
    ∃ v : Word, v.toInt = (b.toInt * a.toInt + 2 ^ 31) % 2 ^ 32 - 2 ^ 31 ∧
      exec .mul s = .next { s with stack := v :: rest, ip := s.ip + 1 }) ∧
  (∀ (s : State) (a b : Word) rest, s.stack = a :: b :: rest → s.overflowPolicy = .fault →
    ¬InInt32 (b.toInt * a.toInt) → FaultsWith .mul s .arithmeticOverflow) ∧
  (∀ s : State, s.stackTop < 2 → FaultsWith .mul s .stackUnderflow)

/-- DIV (42_arithmetic.md; the order of its faults is the spec's decision D10). The quotient is
`Int.tdiv`, the library's division toward zero. -/
def Obligations.DivPushesTheTruncatedQuotient : Prop :=
  encode .div = [0x08] ∧
  (∀ (s : State) (a b : Word) rest, s.stack = a :: b :: rest → s.stackTop ≤ s.capacity → a.toInt ≠ 0 →
    ¬(b.toInt = int32Min ∧ a.toInt = -1) → ∃ v : Word, v.toInt = Int.tdiv b.toInt a.toInt ∧
      exec .div s = .next { s with stack := v :: rest, ip := s.ip + 1 }) ∧
  (∀ (s : State) (a b : Word) rest, s.stack = a :: b :: rest → s.stackTop ≤ s.capacity →
    b.toInt = int32Min → a.toInt = -1 → s.overflowPolicy = .wrap →
    ∃ v : Word, v.toInt = int32Min ∧
      exec .div s = .next { s with stack := v :: rest, ip := s.ip + 1 }) ∧
  (∀ (s : State) (a b : Word) rest, s.stack = a :: b :: rest → b.toInt = int32Min → a.toInt = -1 →
    s.overflowPolicy = .fault → FaultsWith .div s .arithmeticOverflow) ∧
  (∀ (s : State) (a b : Word) rest, s.stack = a :: b :: rest → a.toInt = 0 → FaultsWith .div s .divisionByZero) ∧
  (∀ s : State, s.stackTop < 2 → FaultsWith .div s .stackUnderflow)

/-- MOD (42_arithmetic.md; D8, D10). The remainder is `Int.tmod`, whose sign follows the dividend; it
never overflows, under either policy. -/
def Obligations.ModPushesTheTruncatedRemainder : Prop :=
  encode .mod = [0x09] ∧
  (∀ (s : State) (a b : Word) rest, s.stack = a :: b :: rest → s.stackTop ≤ s.capacity → a.toInt ≠ 0 →
    ∃ v : Word, v.toInt = Int.tmod b.toInt a.toInt ∧
      exec .mod s = .next { s with stack := v :: rest, ip := s.ip + 1 }) ∧
  (∀ (s : State) (a b : Word) rest, s.stack = a :: b :: rest → a.toInt = 0 → FaultsWith .mod s .divisionByZero) ∧
  (∀ s : State, s.stackTop < 2 → FaultsWith .mod s .stackUnderflow) ∧
  (∀ s : State, s.status = .running → ¬FaultsWith .mod s .arithmeticOverflow)

/-! ### The instructions: control transfer -/

/-- JMP (43_control.md; the range of targets is the spec's decision D9). -/
def Obligations.JmpJumpsToAValidTarget : Prop :=
  encode .jmp = [0x0A] ∧
  (∀ (s : State) (t : Word) rest, s.stack = t :: rest → 0 ≤ t.toInt → t.toInt < s.program.size →
    exec .jmp s = .next { s with stack := rest, ip := t.toInt.toNat }) ∧
  (∀ (s : State) (t : Word) rest, s.stack = t :: rest → (t.toInt < 0 ∨ s.program.size ≤ t.toInt) →
    FaultsWith .jmp s (.invalidJumpTarget t)) ∧
  (∀ s : State, s.stackTop = 0 → FaultsWith .jmp s .stackUnderflow)

/-- JZ (43_control.md; D9, D10): it jumps exactly on 0, and checks its target either way. -/
def Obligations.JzJumpsExactlyOnZero : Prop :=
  encode .jz = [0x0B] ∧
  (∀ (s : State) (t v : Word) rest, s.stack = t :: v :: rest → 0 ≤ t.toInt → t.toInt < s.program.size →
    v.toInt = 0 → exec .jz s = .next { s with stack := rest, ip := t.toInt.toNat }) ∧
  (∀ (s : State) (t v : Word) rest, s.stack = t :: v :: rest → 0 ≤ t.toInt → t.toInt < s.program.size →
    v.toInt ≠ 0 → exec .jz s = .next { s with stack := rest, ip := s.ip + 1 }) ∧
  (∀ (s : State) (t v : Word) rest, s.stack = t :: v :: rest → (t.toInt < 0 ∨ s.program.size ≤ t.toInt) →
    FaultsWith .jz s (.invalidJumpTarget t)) ∧
  (∀ s : State, s.stackTop < 2 → FaultsWith .jz s .stackUnderflow)

/-- JNZ (43_control.md; D9, D10): it jumps exactly on a value other than 0, and checks its target either
way. -/
def Obligations.JnzJumpsExactlyOnNonzero : Prop :=
  encode .jnz = [0x0C] ∧
  (∀ (s : State) (t v : Word) rest, s.stack = t :: v :: rest → 0 ≤ t.toInt → t.toInt < s.program.size →
    v.toInt ≠ 0 → exec .jnz s = .next { s with stack := rest, ip := t.toInt.toNat }) ∧
  (∀ (s : State) (t v : Word) rest, s.stack = t :: v :: rest → 0 ≤ t.toInt → t.toInt < s.program.size →
    v.toInt = 0 → exec .jnz s = .next { s with stack := rest, ip := s.ip + 1 }) ∧
  (∀ (s : State) (t v : Word) rest, s.stack = t :: v :: rest → (t.toInt < 0 ∨ s.program.size ≤ t.toInt) →
    FaultsWith .jnz s (.invalidJumpTarget t)) ∧
  (∀ s : State, s.stackTop < 2 → FaultsWith .jnz s .stackUnderflow)

/-! ### The instructions: no-op, output, halt -/

/-- NOP (44_system_output.md R89): on any stack, empty or full, only `ip` changes. -/
def Obligations.NopOnlyAdvances : Prop :=
  encode .nop = [0x0D] ∧ ∀ s : State, exec .nop s = .next { s with ip := s.ip + 1 }

/-- PRINT (44_system_output.md R90): it emits the full int32 it pops, negative values as they are. -/
def Obligations.PrintEmitsTheNumber : Prop :=
  encode .print = [0x0E] ∧
  (∀ (s : State) (v : Word) rest, s.stack = v :: rest → exec .print s =
    .next { s with stack := rest, ip := s.ip + 1, out := s.out ++ [.emitNumber v] }) ∧
  (∀ s : State, s.stackTop = 0 → FaultsWith .print s .stackUnderflow)

/-- PRINT_CHAR (44_system_output.md; the two's-complement reading of "low 8 bits" is the spec's decision
D5): it emits the value mod 256, and no value is a fault. -/
def Obligations.PrintCharEmitsTheLowByte : Prop :=
  encode .printChar = [0x0F] ∧
  (∀ (s : State) (v : Word) rest, s.stack = v :: rest → ∃ b : Byte, (b.toNat : Int) = v.toInt % 256 ∧
    exec .printChar s =
      .next { s with stack := rest, ip := s.ip + 1, out := s.out ++ [.emitByte b] }) ∧
  (∀ s : State, s.stackTop = 0 → FaultsWith .printChar s .stackUnderflow)

/-- HALT (44_system_output.md; that `ip` and the stack stay is the spec's decision D13). -/
def Obligations.HaltEndsTheRunAndKeepsEverything : Prop :=
  encode .halt = [0x10] ∧ ∀ s : State, exec .halt s = .next { s with status := .halted }

/-! ### Every instruction: frames, faults and rules of the whole machine -/

/-- The frame of every instruction (R16, R17, R33, R20, R45): no program byte and no parameter changes;
only PRINT and PRINT_CHAR change the output stream; unless the instruction faults, it pops and pushes
the numbers of values its rule gives, leaves every value below its operands alone, and only HALT
changes the status (that HALT keeps the stack is the spec's decision D13, log 8). -/
def Obligations.EveryInstructionLeavesTheRestAlone : Prop :=
  ∀ i (s t : State), exec i s = .next t →
    t.capacity = s.capacity ∧ t.overflowPolicy = s.overflowPolicy ∧
    (∀ a, memRead t a = memRead s a) ∧ t.program = s.program ∧
    (i.emits = false → t.out = s.out) ∧
    (t.Safe →
      (i ≠ .halt → t.status = s.status) ∧ t.draws = s.draws ∧
      i.pops ≤ s.stackTop ∧ t.stackTop + i.pops = s.stackTop + i.pushes ∧
      t.stack.drop i.pushes = s.stack.drop i.pops)

/-- R22, R28, R33: no step changes the capacity, the policy or any byte of the program. -/
def Obligations.NoStepChangesTheProgramOrTheParameters : Prop :=
  ∀ s t : State, step s = .next t →
    t.capacity = s.capacity ∧ t.overflowPolicy = s.overflowPolicy ∧
    t.program.size = s.program.size ∧ ∀ a, memRead t a = memRead s a

/-- R45, R73: a step emits at most one event, and a step that faults emits none. -/
def Obligations.AStepEmitsAtMostOneEventAndAFaultingStepNone : Prop :=
  ∀ s t : State, step s = .next t →
    (t.out = s.out ∨ ∃ e, t.out = s.out ++ [e]) ∧ (∀ k, t.status = .faulted k → t.out = s.out)

/-- R20, R92, R98: every step starts in Running, and ends in Running, in Halted, or in Faulted (the three
values there are); it ends in Halted exactly when it runs HALT, which then changes nothing else: that
HALT keeps `ip` and the stack is the spec's decision D13 (log 8). -/
def Obligations.OnlyHaltHaltsAndNothingLeavesAnEnd : Prop :=
  ∀ s t : State, step s = .next t →
    s.status = .running ∧
    (t.status = .running ∨ t.Ended) ∧
    (t.status = .halted ↔ fetch s = .ok .halt) ∧
    (t.status = .halted → t = { s with status := .halted })

/-- R98, R99 (what is unspecified after a fault is the spec's decision D11; the ranges are log 6): a step
that faults changes the status to Faulted with the kind, leaves the output, the program and the
parameters alone, and leaves `ip` and the stack within their ranges. -/
def Obligations.AFaultLeavesOutputAndProgramExact : Prop :=
  ∀ (s t : State) k, step s = .next t → t.status = .faulted k →
    FaultedFrom s t k ∧ t.ip ≤ s.program.size ∧ t.stackTop ≤ s.capacity

/-- The table of 60_exceptions.md R95 (kinds and causes; the codes are the spec's own, D27): an
instruction raises only the kinds its row lists, and ArithmeticOverflow only when OVERFLOW_POLICY is
Fault; the fetch raises only InvalidOpcode, with the illegal byte at `ip`, and
ProgramBoundsExceeded. -/
def Obligations.EachFaultIsRaisedOnlyWhereTheTableSays : Prop :=
  (∀ i (s : State) k, s.status = .running → s.stackTop ≤ s.capacity → FaultsWith i s k →
    i.mayRaise k ∧ (k = .arithmeticOverflow → s.overflowPolicy = .fault)) ∧
  (∀ (s : State) k, fetch s = .error k → k = .programBoundsExceeded ∨
    ∃ b, k = .invalidOpcode b ∧ memRead s s.ip = .ok b ∧ (b.toNat = 0 ∨ 0x11 ≤ b.toNat))

/-- The codes of the fault kinds, the spec's own labels (60_exceptions.md, decision D27): 1 to 7, and two
kinds with the same code differ in their payload at most. -/
def Obligations.FaultCodesAreOneToSeven : Prop :=
  (∀ k : FaultKind, 1 ≤ k.code ∧ k.code ≤ 7) ∧
  (∀ k k' : FaultKind, k.code = k'.code →
    k = k' ∨ (∃ b b', k = .invalidOpcode b ∧ k' = .invalidOpcode b') ∨
    ∃ t t', k = .invalidJumpTarget t ∧ k' = .invalidJumpTarget t') ∧
  FaultKind.code .stackUnderflow = 1 ∧ FaultKind.code .stackOverflow = 2 ∧
  (∀ b, FaultKind.code (.invalidOpcode b) = 3) ∧ FaultKind.code .divisionByZero = 4 ∧
  (∀ t, FaultKind.code (.invalidJumpTarget t) = 5) ∧
  FaultKind.code .programBoundsExceeded = 6 ∧ FaultKind.code .arithmeticOverflow = 7

/-- 30_encoding.md R53 (derived there): NOP is the only instruction with no effect besides advancing
`ip`: every other one completes, without a fault, from some state of the invariant with another
effect. -/
def Obligations.OnlyNopHasNoOtherEffect : Prop :=
  ∀ i : Instr, i ≠ .nop → ∃ s t : State, s.Inv ∧ s.status = .running ∧ exec i s = .next t ∧ t.Safe ∧
    t ≠ { s with ip := s.ip + i.length }

/-- R54, R55: what a step does depends on the program only through its length and the bytes at `ip` and
`ip + 1`: with another program that agrees there, the step has the same status, output, stack and `ip`
(the last two unless it faults, R99). What stands before `ip`, and whether `ip` is the immediate byte of
a PUSH, does not matter. -/
def Obligations.AStepSeesOnlyTheBytesAtItsAddress : Prop :=
  ∀ (s t : State) (m : Memory), m.size = s.program.size → m.read s.ip = s.program.read s.ip →
    m.read (s.ip + 1) = s.program.read (s.ip + 1) → step s = .next t →
    ∃ u, step { s with program := m } = .next u ∧ Agree t u ∧ u.program = m ∧
      u.capacity = t.capacity ∧ u.overflowPolicy = t.overflowPolicy

/-- R68, R96 (the policy is the spec's OPEN parameter D7): a run whose results all stay in the int32 range
does not depend on OVERFLOW_POLICY: if under Fault it does not end in ArithmeticOverflow, then under
Wrap it has the same status, output, stack and `ip` (the last two unless it ends in a fault, R99). -/
def Obligations.RunsWithoutOverflowDoNotDependOnThePolicy : Prop :=
  ∀ k (s t : State), s.overflowPolicy = .fault → core.run k s = .next t →
    t.status ≠ .faulted .arithmeticOverflow →
    ∃ u : State, core.run k { s with overflowPolicy := .wrap } = .next u ∧ Agree t u ∧
      u.program = t.program ∧ u.capacity = t.capacity ∧ u.overflowPolicy = .wrap

/-- Under Wrap the fault ArithmeticOverflow never occurs (60_exceptions.md R96, decision D7), in any
number of steps. -/
def Obligations.WrapNeverRaisesArithmeticOverflow : Prop :=
  ∀ k (s t : State), s.overflowPolicy = .wrap → s.status ≠ .faulted .arithmeticOverflow →
    core.run k s = .next t → t.status ≠ .faulted .arithmeticOverflow

/-! ### The program memory and the sink -/

/-- The canonical form of the program memory (the model's own, log 4): a memory built from bytes has it
and reads as those bytes, and two memories in that form with the same length and the same bytes are
the same memory. -/
def Obligations.EqualProgramsAreEqualMemories : Prop :=
  (∀ bs, (Memory.ofBytes bs).wf ∧ ∀ a, (Memory.ofBytes bs).read a = bs[a]?) ∧
  (∀ m m' : Memory, m.wf → m'.wf → m.size = m'.size → (∀ a, m.read a = m'.read a) → m = m')

/-- Placing a program byte (the outside world's, log 3; no instruction does it, R33): it keeps the
canonical form, reads back, and leaves every other address of the program alone. -/
def Obligations.PlacingAByteChangesThatByteAlone : Prop :=
  ∀ (m : Memory) a v, m.wf →
    (m.place a v).wf ∧ (m.place a v).read a = some v ∧
    (∀ b, b ≠ a → b < m.size → (m.place a v).read b = m.read b) ∧
    (m.place a v).size = max m.size (a + 1)

/-- The sink's rendering (44_system_output.md, decision D18; outside the core, log 9): a number is a `-`
exactly when it is negative, then ASCII digits that write its absolute value in decimal with no
leading zero, then one line feed; a byte is itself; a stream is rendered in order. -/
def Obligations.TheSinkRendersDecimalAndRawBytes : Prop :=
  (∀ v : Word, ∃ digits : List Byte,
    Sink.event (.emitNumber v) = (if v.toInt < 0 then [0x2D] else []) ++ digits ++ [0x0A] ∧
    digits.foldl (fun n d => 10 * n + (d.toNat - 0x30)) 0 = v.toInt.natAbs ∧
    (∀ d ∈ digits, 0x30 ≤ d.toNat ∧ d.toNat ≤ 0x39) ∧ digits ≠ [] ∧
    (digits.head? = some 0x30 → digits = [0x30])) ∧
  (∀ b, Sink.event (.emitByte b) = [b]) ∧
  (∀ xs ys, Sink.render (xs ++ ys) = Sink.render xs ++ Sink.render ys)
end

