-- ==== Sys2Proof/Laws/Decode.lean ====
section
/-! SUPPORT. What the decoder can answer, said once for the opcode byte and once for a byte sequence. -/

namespace Sys2Proof

/-- The opcode map is the inverse of `Instr.opcode` on the instructions of format Z. -/
theorem decodeOpcode_complete {b : Byte} {i : Instr} (h : decodeOpcode b = .ok (.complete i)) :
    encode i = [b] ∧ i.length = 1 := by
  revert h
  unfold decodeOpcode
  split <;> intro h <;> simp only [Except.ok.injEq, Operation.complete.injEq, reduceCtorEq] at h
  all_goals
    subst h
    rename_i hb
    refine ⟨?_, rfl⟩
    simp only [encode, Instr.opcode, List.cons.injEq, and_true]
    exact BitVec.eq_of_toNat_eq hb.symm

/-- Only 0x01 starts an instruction of format I. -/
theorem decodeOpcode_pushOpcode {b : Byte} (h : decodeOpcode b = .ok .pushOpcode) : b = 0x01 := by
  revert h
  unfold decodeOpcode
  split <;> intro h <;> simp only [Except.ok.injEq, reduceCtorEq] at h
  rename_i hb
  exact BitVec.eq_of_toNat_eq hb

/-- The only way an opcode byte fails to decode is InvalidOpcode of that byte. -/
theorem decodeOpcode_error {b : Byte} {e : DecodeError} (h : decodeOpcode b = .error e) :
    e = .invalidOpcode b := by
  revert h
  unfold decodeOpcode
  split <;> intro h <;> simp_all

theorem decode_complete {b : Byte} {i : Instr} (rest : List Byte)
    (h : decodeOpcode b = .ok (.complete i)) : decode (b :: rest) = .ok (i, rest) := by
  simp only [decode, h]

theorem decode_push (imm8 : Byte) (rest : List Byte) :
    decode (0x01 :: imm8 :: rest) = .ok (.push imm8, rest) := rfl

theorem decode_error {b : Byte} (rest : List Byte) {e : DecodeError}
    (h : decodeOpcode b = .error e) : decode (b :: rest) = .error e := by
  simp only [decode, h]

/-- What `decode` can answer on a byte sequence that is not empty. -/
theorem decode_cases {b : Byte} {rest : List Byte} {r : Except DecodeError (Instr × List Byte)}
    (h : decode (b :: rest) = r) :
    (∃ i, decodeOpcode b = .ok (.complete i) ∧ r = .ok (i, rest)) ∨
    (b = 0x01 ∧ rest = [] ∧ r = .error .outOfBytes) ∨
    (b = 0x01 ∧ ∃ imm8 rest', rest = imm8 :: rest' ∧ r = .ok (.push imm8, rest')) ∨
    (decodeOpcode b = .error (.invalidOpcode b) ∧ r = .error (.invalidOpcode b)) := by
  subst h
  match hd : decodeOpcode b with
  | .error e =>
    obtain rfl := decodeOpcode_error hd
    exact .inr (.inr (.inr ⟨rfl, decode_error rest hd⟩))
  | .ok (.complete i) => exact .inl ⟨i, rfl, decode_complete rest hd⟩
  | .ok .pushOpcode =>
    obtain rfl := decodeOpcode_pushOpcode hd
    match rest with
    | [] => exact .inr (.inl ⟨rfl, rfl, rfl⟩)
    | imm8 :: rest' => exact .inr (.inr (.inl ⟨rfl, imm8, rest', rfl, rfl⟩))

end Sys2Proof
end

