-- ==== Sys2Proof/Laws/State.lean ====
section
/-! SUPPORT. One lemma for each field of the state under each update, so that no proof unfolds a record
update. -/

namespace Sys2Proof.Machine

/-! ### advance -/

@[simp] theorem State.advance_capacity (s : State) (i : Instr) : (s.advance i).capacity = s.capacity := rfl
@[simp] theorem State.advance_overflowPolicy (s : State) (i : Instr) : (s.advance i).overflowPolicy = s.overflowPolicy := rfl
@[simp] theorem State.advance_program (s : State) (i : Instr) : (s.advance i).program = s.program := rfl
@[simp] theorem State.advance_ip (s : State) (i : Instr) : (s.advance i).ip = s.ip + i.length := rfl
@[simp] theorem State.advance_stack (s : State) (i : Instr) : (s.advance i).stack = s.stack := rfl
@[simp] theorem State.advance_status (s : State) (i : Instr) : (s.advance i).status = s.status := rfl
@[simp] theorem State.advance_out (s : State) (i : Instr) : (s.advance i).out = s.out := rfl
@[simp] theorem State.advance_draws (s : State) (i : Instr) : (s.advance i).draws = s.draws := rfl
@[simp] theorem State.advance_stackTop (s : State) (i : Instr) : (s.advance i).stackTop = s.stackTop := rfl

/-! ### jump -/

@[simp] theorem State.jump_capacity (s : State) (a : Nat) : (s.jump a).capacity = s.capacity := rfl
@[simp] theorem State.jump_overflowPolicy (s : State) (a : Nat) : (s.jump a).overflowPolicy = s.overflowPolicy := rfl
@[simp] theorem State.jump_program (s : State) (a : Nat) : (s.jump a).program = s.program := rfl
@[simp] theorem State.jump_ip (s : State) (a : Nat) : (s.jump a).ip = a := rfl
@[simp] theorem State.jump_stack (s : State) (a : Nat) : (s.jump a).stack = s.stack := rfl
@[simp] theorem State.jump_status (s : State) (a : Nat) : (s.jump a).status = s.status := rfl
@[simp] theorem State.jump_out (s : State) (a : Nat) : (s.jump a).out = s.out := rfl
@[simp] theorem State.jump_draws (s : State) (a : Nat) : (s.jump a).draws = s.draws := rfl
@[simp] theorem State.jump_stackTop (s : State) (a : Nat) : (s.jump a).stackTop = s.stackTop := rfl

/-! ### halt -/

@[simp] theorem State.halt_capacity (s : State) : (s.halt).capacity = s.capacity := rfl
@[simp] theorem State.halt_overflowPolicy (s : State) : (s.halt).overflowPolicy = s.overflowPolicy := rfl
@[simp] theorem State.halt_program (s : State) : (s.halt).program = s.program := rfl
@[simp] theorem State.halt_ip (s : State) : (s.halt).ip = s.ip := rfl
@[simp] theorem State.halt_stack (s : State) : (s.halt).stack = s.stack := rfl
@[simp] theorem State.halt_status (s : State) : (s.halt).status = .halted := rfl
@[simp] theorem State.halt_out (s : State) : (s.halt).out = s.out := rfl
@[simp] theorem State.halt_draws (s : State) : (s.halt).draws = s.draws := rfl
@[simp] theorem State.halt_stackTop (s : State) : (s.halt).stackTop = s.stackTop := rfl

/-! ### emit -/

@[simp] theorem State.emit_capacity (s : State) (e : Event) : (s.emit e).capacity = s.capacity := rfl
@[simp] theorem State.emit_overflowPolicy (s : State) (e : Event) : (s.emit e).overflowPolicy = s.overflowPolicy := rfl
@[simp] theorem State.emit_program (s : State) (e : Event) : (s.emit e).program = s.program := rfl
@[simp] theorem State.emit_ip (s : State) (e : Event) : (s.emit e).ip = s.ip := rfl
@[simp] theorem State.emit_stack (s : State) (e : Event) : (s.emit e).stack = s.stack := rfl
@[simp] theorem State.emit_status (s : State) (e : Event) : (s.emit e).status = s.status := rfl
@[simp] theorem State.emit_out (s : State) (e : Event) : (s.emit e).out = s.out ++ [e] := rfl
@[simp] theorem State.emit_draws (s : State) (e : Event) : (s.emit e).draws = s.draws := rfl
@[simp] theorem State.emit_stackTop (s : State) (e : Event) : (s.emit e).stackTop = s.stackTop := rfl

/-! ### raise -/

@[simp] theorem raise_capacity (k : FaultKind) (s : State) : (raise k s).capacity = s.capacity := rfl
@[simp] theorem raise_overflowPolicy (k : FaultKind) (s : State) : (raise k s).overflowPolicy = s.overflowPolicy := rfl
@[simp] theorem raise_program (k : FaultKind) (s : State) : (raise k s).program = s.program := rfl
@[simp] theorem raise_status (k : FaultKind) (s : State) : (raise k s).status = .faulted k := rfl
@[simp] theorem raise_out (k : FaultKind) (s : State) : (raise k s).out = s.out := rfl
@[simp] theorem raise_draws (k : FaultKind) (s : State) : (raise k s).draws = s.draws + 1 := rfl

/-! ### boot -/

@[simp] theorem State.boot_capacity (cap : Nat) (pol : OverflowPolicy) (prog : List Byte) (d : Nat) :
    (State.boot cap pol prog d).capacity = cap := rfl
@[simp] theorem State.boot_overflowPolicy (cap : Nat) (pol : OverflowPolicy) (prog : List Byte) (d : Nat) :
    (State.boot cap pol prog d).overflowPolicy = pol := rfl
@[simp] theorem State.boot_program (cap : Nat) (pol : OverflowPolicy) (prog : List Byte) (d : Nat) :
    (State.boot cap pol prog d).program = Memory.ofBytes prog := rfl
@[simp] theorem State.boot_ip (cap : Nat) (pol : OverflowPolicy) (prog : List Byte) (d : Nat) :
    (State.boot cap pol prog d).ip = 0 := rfl
@[simp] theorem State.boot_stack (cap : Nat) (pol : OverflowPolicy) (prog : List Byte) (d : Nat) :
    (State.boot cap pol prog d).stack = [] := rfl
@[simp] theorem State.boot_status (cap : Nat) (pol : OverflowPolicy) (prog : List Byte) (d : Nat) :
    (State.boot cap pol prog d).status = .running := rfl
@[simp] theorem State.boot_out (cap : Nat) (pol : OverflowPolicy) (prog : List Byte) (d : Nat) :
    (State.boot cap pol prog d).out = [] := rfl
@[simp] theorem State.boot_draws (cap : Nat) (pol : OverflowPolicy) (prog : List Byte) (d : Nat) :
    (State.boot cap pol prog d).draws = d := rfl
@[simp] theorem State.boot_stackTop (cap : Nat) (pol : OverflowPolicy) (prog : List Byte) (d : Nat) :
    (State.boot cap pol prog d).stackTop = 0 := rfl

/-- Reset is the construction of a run, for the model's stand-in parameters (log 1, 2, 3, 6). -/
theorem State.reset_eq_boot :
    State.reset = State.boot Config.resetCapacity Config.overflowPolicy [] 0 := rfl

/-! ### withFetchWord and the stack pointer -/

@[simp] theorem State.withFetchWord_status (s : State) (n w : Nat) :
    (s.withFetchWord n w).status = .running := rfl
@[simp] theorem State.withFetchWord_ip (s : State) (n w : Nat) : (s.withFetchWord n w).ip = s.ip := rfl
@[simp] theorem State.withFetchWord_program (s : State) (n w : Nat) :
    (s.withFetchWord n w).program = s.program.placeAll s.ip (tableBytes n w) := rfl

/-- `stack_top` is the length of the list of live elements. -/
theorem State.stackTop_eq (s : State) : s.stackTop = s.stack.length := rfl

end Sys2Proof.Machine
end

