-- ==== Sys2Proof/Laws/Ops.lean ====
section
/-! SUPPORT. What each shared operation can do, said once: the stack primitives, the operand forms, the
end of a step, raising a fault. -/

namespace Sys2Proof.Machine

/-! ### push and pop -/

theorem push_of_room {s : State} (v : Word) (h : s.stackTop ≠ s.capacity) :
    push v s = .ok { s with stack := v :: s.stack } := if_neg h

theorem push_of_full {s : State} (v : Word) (h : s.stackTop = s.capacity) :
    push v s = .error .stackOverflow := if_pos h

theorem push_ok_iff {v : Word} {s t : State} :
    push v s = .ok t ↔ s.stackTop ≠ s.capacity ∧ t = { s with stack := v :: s.stack } := by
  unfold push
  split <;> simp_all [eq_comm]

theorem push_error_iff {v : Word} {s : State} {k : FaultKind} :
    push v s = .error k ↔ s.stackTop = s.capacity ∧ k = .stackOverflow := by
  unfold push
  split <;> simp_all [eq_comm]

theorem pop_nil {s : State} (h : s.stack = []) : pop s = .error .stackUnderflow := by
  simp [pop, h]

theorem pop_cons {s : State} {v : Word} {rest : List Word} (h : s.stack = v :: rest) :
    pop s = .ok (v, { s with stack := rest }) := by
  simp [pop, h]

theorem pop2_nil {s : State} (h : s.stack = []) : pop2 s = .error .stackUnderflow := by
  rw [pop2, pop_nil h]
  rfl

theorem pop2_singleton {s : State} {a : Word} (h : s.stack = [a]) :
    pop2 s = .error .stackUnderflow := by
  rw [pop2, pop_cons h]
  rfl

theorem pop2_cons_cons {s : State} {a b : Word} {rest : List Word} (h : s.stack = a :: b :: rest) :
    pop2 s = .ok (a, b, { s with stack := rest }) := by
  rw [pop2, pop_cons h]
  rfl

theorem pop2_of_short {s : State} (h : s.stackTop < 2) : pop2 s = .error .stackUnderflow := by
  match hs : s.stack with
  | [] => exact pop2_nil hs
  | [a] => exact pop2_singleton hs
  | _ :: _ :: _ => simp [State.stackTop, hs] at h

/-! ### Jump targets -/

theorem checkTarget_ok {s : State} {t : Word} (h0 : 0 ≤ t.toInt) (h1 : t.toInt < s.program.size) :
    checkTarget s t = .ok t.toInt.toNat := by
  rw [checkTarget, if_neg (by omega)]

theorem checkTarget_error {s : State} {t : Word} (h : t.toInt < 0 ∨ s.program.size ≤ t.toInt) :
    checkTarget s t = .error (.invalidJumpTarget t) := by
  rw [checkTarget, if_pos (by omega)]

/-- The check depends on the program's length alone, so the pops before it do not matter. -/
theorem checkTarget_with_stack (s : State) (rest : List Word) (t : Word) :
    checkTarget { s with stack := rest } t = checkTarget s t := rfl

/-! ### The end of a step -/

@[simp] theorem conclude_ok (s t : State) : conclude s (.ok t) = .next t := rfl

@[simp] theorem conclude_error (s : State) (k : FaultKind) :
    conclude s (.error k) = .next (raise k s) := rfl

theorem conclude_next_iff {s t : State} {r : Except FaultKind State} :
    conclude s r = .next t ↔ r = .ok t ∨ ∃ k, r = .error k ∧ t = raise k s := by
  cases r <;> simp [conclude, eq_comm]

theorem conclude_total (s : State) (r : Except FaultKind State) : ∃ t, conclude s r = .next t := by
  cases r <;> exact ⟨_, rfl⟩

/-- What is exact after a fault (60_exceptions.md R99). -/
theorem raise_faultedFrom (k : FaultKind) (s : State) : FaultedFrom s (raise k s) k :=
  ⟨rfl, rfl, rfl, rfl, rfl⟩

theorem raise_ip_le (k : FaultKind) (s : State) : (raise k s).ip ≤ s.program.size :=
  Nat.min_le_right _ _

theorem raise_stackTop_le (k : FaultKind) (s : State) : (raise k s).stackTop ≤ s.capacity :=
  List.length_take_le _ _

theorem stopOf_running {s : State} (h : s.status = .running) : stopOf s = none := by
  simp [stopOf, h]

theorem stopOf_eq_none_iff {s : State} : stopOf s = none ↔ s.status = .running := by
  unfold stopOf
  split <;> simp_all

/-! ### MemRead -/

theorem memRead_of_lt {s : State} {a : Nat} (h : a < s.program.size) :
    memRead s a = .ok (Memory.cellAt s.program.cells a) := by
  simp [memRead, Memory.read, h]

theorem memRead_of_ge {s : State} {a : Nat} (h : s.program.size ≤ a) :
    memRead s a = .error .programBoundsExceeded := by
  simp [memRead, Memory.read, Nat.not_lt.mpr h]

theorem lt_of_memRead_ok {s : State} {a : Nat} {b : Byte} (h : memRead s a = .ok b) :
    a < s.program.size := by
  by_contra hn
  rw [memRead_of_ge (Nat.le_of_not_lt hn)] at h
  cases h

end Sys2Proof.Machine
end

