-- ==== Sys2Proof/Laws/Integer.lean ====
section
/-! SUPPORT. The integer laws: what `toInt32`, `tdiv`, `trem` and the operand forms compute, in terms
of the int32 that a word stands for. -/

namespace Sys2Proof.Machine

/-- Every word stands for an int32. -/
theorem inInt32_toInt (v : Word) : InInt32 v.toInt := by
  have h1 := BitVec.toInt_lt (x := v)
  have h2 := BitVec.le_toInt (x := v)
  simp [InInt32, int32Min, int32Max] at *
  omega

/-- A word is determined by the int32 it stands for. -/
theorem toInt_ofInt_of_inInt32 {v : Int} (h : InInt32 v) : (BitVec.ofInt 32 v).toInt = v := by
  rw [BitVec.toInt_ofInt, Int.bmod_def]
  simp [InInt32, int32Min, int32Max] at h
  split <;> omega

/-- The wrapped value of 40_execution_cycle.md R68 is an int32 whatever the integer. -/
theorem wrapped_inInt32 (v : Int) : InInt32 ((v + 2 ^ 31) % 2 ^ 32 - 2 ^ 31) := by
  simp [InInt32, int32Min, int32Max]
  omega

theorem toInt32_of_inInt32 {policy : OverflowPolicy} {v : Int} (h : InInt32 v) :
    toInt32 policy v = .ok (BitVec.ofInt 32 v) := if_pos h

theorem toInt32_wrap_of_not {v : Int} (h : ¬InInt32 v) :
    toInt32 .wrap v = .ok (BitVec.ofInt 32 ((v + 2 ^ 31) % 2 ^ 32 - 2 ^ 31)) := if_neg h

theorem toInt32_fault_of_not {v : Int} (h : ¬InInt32 v) :
    toInt32 .fault v = .error .arithmeticOverflow := if_neg h

/-- `tdiv` is the truncating division of the library. -/
theorem tdiv_eq (b a : Int) : tdiv b a = Int.tdiv b a := by
  rcases Int.natAbs_eq b with hb | hb <;> rcases Int.natAbs_eq a with ha | ha <;>
    · unfold tdiv
      generalize b.natAbs = m at *
      generalize a.natAbs = n at *
      subst hb ha
      rcases Nat.eq_zero_or_pos m with rfl | hm <;> rcases Nat.eq_zero_or_pos n with rfl | hn <;>
        simp_all [Int.sign_eq_one_of_pos, Int.neg_tdiv, Int.tdiv_neg]

/-- `trem` is the remainder that goes with it. -/
theorem trem_eq (b a : Int) : trem b a = Int.tmod b a := by
  rw [trem, tdiv_eq, Int.tmod_def]

theorem isZero_iff (v : Word) : isZero v = true ↔ v.toInt = 0 := by simp [isZero]

theorem checkDivisor_zero {a : Word} (h : a.toInt = 0) : checkDivisor a = .error .divisionByZero := by
  simp [checkDivisor, isZero, h]

theorem checkDivisor_nonzero {a : Word} (h : a.toInt ≠ 0) : checkDivisor a = .ok () := by
  simp [checkDivisor, isZero, h]

/-- Zero extension keeps the value of the byte (30_encoding.md R49). -/
theorem toInt_zext32 (b : Byte) : (zext32 b).toInt = b.toNat := by
  have h : (zext32 b).toNat = b.toNat := by
    simp only [zext32, BitVec.toNat_setWidth]
    omega
  rw [BitVec.toInt_eq_toNat_cond, h, if_pos (by omega)]

/-- The low byte is the residue mod 256 (44_system_output.md R91). -/
theorem toNat_lowByte (v : Word) : ((lowByte v).toNat : Int) = v.toInt % 256 := by
  simp only [lowByte, BitVec.toNat_setWidth, BitVec.toInt_eq_toNat_cond]
  split <;> omega

end Sys2Proof.Machine
end

