-- ==== Sys2Proof/Laws/Exec.lean ====
section
/-! SUPPORT. What each meaning answers on each kind of stack, said once: the shared shapes `binary`,
`jumpIf` and `output`, and one lemma that says what an instruction can do at all. -/

namespace Sys2Proof.Machine

/-! ### The shared shapes -/

theorem binary_short {s : State} (i : Instr) (op : Word → Word → Except FaultKind Word)
    (h : s.stackTop < 2) : binary i op s = .next (raise .stackUnderflow s) := by
  rw [binary, pop2_of_short h]
  rfl

theorem binary_error {s : State} {a b : Word} {rest : List Word} {k : FaultKind} (i : Instr)
    (op : Word → Word → Except FaultKind Word) (h : s.stack = a :: b :: rest)
    (hop : op b a = .error k) : binary i op s = .next (raise k s) := by
  simp only [binary, pop2_cons_cons h, bind, Except.bind, hop, conclude_error]

theorem binary_ok {s : State} {a b v : Word} {rest : List Word} (i : Instr)
    (op : Word → Word → Except FaultKind Word) (h : s.stack = a :: b :: rest)
    (hs : s.stackTop ≤ s.capacity) (hop : op b a = .ok v) :
    binary i op s = .next { s with stack := v :: rest, ip := s.ip + i.length } := by
  have room : ({ s with stack := rest } : State).stackTop ≠ s.capacity := by
    simp only [State.stackTop, h, List.length_cons] at hs ⊢
    omega
  simp only [binary, pop2_cons_cons h, bind, Except.bind, hop, push_of_room v room]
  rfl

theorem jumpIf_short {s : State} (i : Instr) (c : Word → Bool) (h : s.stackTop < 2) :
    jumpIf i c s = .next (raise .stackUnderflow s) := by
  rw [jumpIf, pop2_of_short h]
  rfl

theorem jumpIf_error {s : State} {t v : Word} {rest : List Word} (i : Instr) (c : Word → Bool)
    (h : s.stack = t :: v :: rest) (ht : t.toInt < 0 ∨ s.program.size ≤ t.toInt) :
    jumpIf i c s = .next (raise (.invalidJumpTarget t) s) := by
  simp only [jumpIf, pop2_cons_cons h, bind, Except.bind, checkTarget_with_stack, checkTarget_error ht,
    conclude_error]

theorem jumpIf_ok {s : State} {t v : Word} {rest : List Word} (i : Instr) (c : Word → Bool)
    (h : s.stack = t :: v :: rest) (h0 : 0 ≤ t.toInt) (h1 : t.toInt < s.program.size) :
    jumpIf i c s = .next { s with
      stack := rest
      ip := if c v then t.toInt.toNat else s.ip + i.length } := by
  simp only [jumpIf, pop2_cons_cons h, bind, Except.bind, checkTarget_with_stack, checkTarget_ok h0 h1]
  split <;> rfl

theorem output_nil {s : State} (i : Instr) (e : Word → Event) (h : s.stack = []) :
    output i e s = .next (raise .stackUnderflow s) := by
  rw [output, pop_nil h]
  rfl

theorem output_cons {s : State} {v : Word} {rest : List Word} (i : Instr) (e : Word → Event)
    (h : s.stack = v :: rest) :
    output i e s =
      .next { s with stack := rest, ip := s.ip + i.length, out := s.out ++ [e v] } := by
  rw [output, pop_cons h]
  rfl

/-! ### The arms of `exec` in terms of the shared shapes -/

theorem exec_push (imm8 : Byte) (s : State) :
    exec (.push imm8) s = execPush imm8 s := rfl
theorem exec_pop (s : State) :
    exec .pop s = execPop s := rfl
theorem exec_dup (s : State) :
    exec .dup s = execDup s := rfl
theorem exec_swap (s : State) :
    exec .swap s = execSwap s := rfl
theorem exec_add (s : State) :
    exec .add s = binary .add (fun b a => toInt32 s.overflowPolicy (b.toInt + a.toInt)) s := rfl
theorem exec_sub (s : State) :
    exec .sub s = binary .sub (fun b a => toInt32 s.overflowPolicy (b.toInt - a.toInt)) s := rfl
theorem exec_mul (s : State) :
    exec .mul s = binary .mul (fun b a => toInt32 s.overflowPolicy (b.toInt * a.toInt)) s := rfl
theorem exec_div (s : State) :
    exec .div s = binary .div (fun b a => do
      checkDivisor a
      toInt32 s.overflowPolicy (tdiv b.toInt a.toInt)) s := rfl
theorem exec_mod (s : State) :
    exec .mod s = binary .mod (fun b a => do
      checkDivisor a
      return BitVec.ofInt 32 (trem b.toInt a.toInt)) s := rfl
theorem exec_jmp (s : State) :
    exec .jmp s = execJmp s := rfl
theorem exec_jz (s : State) :
    exec .jz s = jumpIf .jz (fun v => isZero v) s := rfl
theorem exec_jnz (s : State) :
    exec .jnz s = jumpIf .jnz (fun v => !isZero v) s := rfl
theorem exec_nop (s : State) :
    exec .nop s = .next (s.advance .nop) := rfl
theorem exec_print (s : State) :
    exec .print s = output .print (fun v => .emitNumber v) s := rfl
theorem exec_printChar (s : State) :
    exec .printChar s = output .printChar (fun v => .emitByte (lowByte v)) s := rfl
theorem exec_halt (s : State) :
    exec .halt s = .next s.halt := rfl

/-! ### What an instruction can do -/

/-- How an instruction that raises no fault changes the state: it replaces `pops` values of the top of
the stack by `pushes` others, and sets `ip`, and may set the status to Halted or append one event;
nothing else. -/
structure Completes (i : Instr) (s t : State) : Prop where
  stack : ∃ popped pushed rest, s.stack = popped ++ rest ∧ t.stack = pushed ++ rest ∧
    popped.length = i.pops ∧ pushed.length = i.pushes
  out : t.out = s.out ∨ (i.emits = true ∧ ∃ e, t.out = s.out ++ [e])
  status : t.status = s.status ∨ (i = .halt ∧ t.status = .halted)
  ip : (i.takesJump s ∧ ∃ v ∈ s.stack.head?, 0 ≤ v.toInt ∧ v.toInt < s.program.size ∧
      t.ip = v.toInt.toNat) ∨
    (i = .halt ∧ t.ip = s.ip) ∨ (¬i.takesJump s ∧ i ≠ .halt ∧ t.ip = s.ip + i.length)
  depth : s.stackTop ≤ s.capacity → t.stackTop ≤ s.capacity
  capacity : t.capacity = s.capacity
  overflowPolicy : t.overflowPolicy = s.overflowPolicy
  program : t.program = s.program
  draws : t.draws = s.draws

/-- The faults an instruction can raise in a state: those its row of 60_exceptions.md R95 lists, an
arithmetic overflow only under the policy Fault; and a stack overflow where the stack already holds
more elements than it has slots, which no state of a run does. -/
inductive Raises (i : Instr) (s : State) : FaultKind → Prop where
  | listed {k : FaultKind} (h : i.mayRaise k)
      (policy : k = .arithmeticOverflow → s.overflowPolicy = .fault) : Raises i s k
  | overfull (h : s.capacity < s.stackTop) : Raises i s .stackOverflow

theorem execPush_cases {imm8 : Byte} {s t : State} (h : execPush imm8 s = .next t) :
    (s.stackTop = s.capacity ∧ t = raise .stackOverflow s) ∨
    (s.stackTop ≠ s.capacity ∧
      t = { s with stack := zext32 imm8 :: s.stack, ip := s.ip + 2 }) := by
  by_cases hs : s.stackTop = s.capacity
  · rw [execPush, push_of_full _ hs] at h
    exact .inl ⟨hs, by cases h; rfl⟩
  · rw [execPush, push_of_room _ hs] at h
    exact .inr ⟨hs, by cases h; rfl⟩

theorem execDup_cases {s t : State} (h : execDup s = .next t) :
    (s.stack = [] ∧ t = raise .stackUnderflow s) ∨
    (∃ x rest, s.stack = x :: rest ∧
      ((rest.length = s.capacity ∨ s.stackTop = s.capacity) ∧ t = raise .stackOverflow s ∨
       rest.length ≠ s.capacity ∧ s.stackTop ≠ s.capacity ∧
        t = { s with stack := x :: x :: rest, ip := s.ip + 1 })) := by
  match hs : s.stack with
  | [] =>
    rw [execDup, pop_nil hs] at h
    exact .inl ⟨rfl, by cases h; rfl⟩
  | x :: rest =>
    refine .inr ⟨x, rest, rfl, ?_⟩
    have top : s.stackTop = rest.length + 1 := by simp [State.stackTop, hs]
    rw [execDup, pop_cons hs] at h
    simp only [bind, Except.bind] at h
    by_cases h1 : rest.length = s.capacity
    · rw [push_of_full _ (by simpa [State.stackTop] using h1)] at h
      exact .inl ⟨.inl h1, by cases h; rfl⟩
    · rw [push_of_room _ (by simpa [State.stackTop] using h1)] at h
      simp only at h
      by_cases h2 : s.stackTop = s.capacity
      · rw [push_of_full _ (by simp only [State.stackTop, List.length_cons] at *; omega)] at h
        exact .inl ⟨.inr h2, by cases h; rfl⟩
      · rw [push_of_room _ (by simp only [State.stackTop, List.length_cons] at *; omega)] at h
        exact .inr ⟨h1, h2, by cases h; rfl⟩

theorem execSwap_cases {s t : State} (h : execSwap s = .next t) :
    (s.stackTop < 2 ∧ t = raise .stackUnderflow s) ∨
    (∃ a b rest, s.stack = a :: b :: rest ∧
      ((s.capacity < s.stackTop ∧ t = raise .stackOverflow s) ∨
       t = { s with stack := b :: a :: rest, ip := s.ip + 1 })) := by
  by_cases hs : s.stackTop < 2
  · rw [execSwap, pop2_of_short hs] at h
    exact .inl ⟨hs, by cases h; rfl⟩
  · match hst : s.stack with
    | [] | [_] => simp [State.stackTop, hst] at hs
    | a :: b :: rest =>
      have top : s.stackTop = rest.length + 2 := by simp [State.stackTop, hst]
      refine .inr ⟨a, b, rest, rfl, ?_⟩
      rw [execSwap, pop2_cons_cons hst] at h
      simp only [bind, Except.bind] at h
      by_cases h1 : rest.length = s.capacity
      · rw [push_of_full _ (by simpa [State.stackTop] using h1)] at h
        exact .inl ⟨by omega, by cases h; rfl⟩
      · rw [push_of_room _ (by simpa [State.stackTop] using h1)] at h
        simp only at h
        by_cases h2 : rest.length + 1 = s.capacity
        · rw [push_of_full _ (by simpa [State.stackTop] using h2)] at h
          exact .inl ⟨by omega, by cases h; rfl⟩
        · rw [push_of_room _ (by simpa [State.stackTop] using h2)] at h
          exact .inr (by cases h; rfl)

theorem execJmp_cases {s t : State} (h : execJmp s = .next t) :
    (s.stack = [] ∧ t = raise .stackUnderflow s) ∨
    (∃ v rest, s.stack = v :: rest ∧
      (((v.toInt < 0 ∨ s.program.size ≤ v.toInt) ∧ t = raise (.invalidJumpTarget v) s) ∨
       (0 ≤ v.toInt ∧ v.toInt < s.program.size ∧
        t = { s with stack := rest, ip := v.toInt.toNat }))) := by
  match hs : s.stack with
  | [] =>
    rw [execJmp, pop_nil hs] at h
    exact .inl ⟨rfl, by cases h; rfl⟩
  | v :: rest =>
    refine .inr ⟨v, rest, rfl, ?_⟩
    rw [execJmp, pop_cons hs] at h
    simp only [bind, Except.bind, checkTarget_with_stack] at h
    by_cases hv : v.toInt < 0 ∨ s.program.size ≤ v.toInt
    · rw [checkTarget_error hv] at h
      exact .inl ⟨hv, by cases h; rfl⟩
    · rw [checkTarget_ok (by omega) (by omega)] at h
      exact .inr ⟨by omega, by omega, by cases h; rfl⟩

theorem binary_cases {i : Instr} {op : Word → Word → Except FaultKind Word} {s t : State}
    (h : binary i op s = .next t) :
    (s.stackTop < 2 ∧ t = raise .stackUnderflow s) ∨
    (∃ a b rest, s.stack = a :: b :: rest ∧
      ((∃ k, op b a = .error k ∧ t = raise k s) ∨
       (∃ v, op b a = .ok v ∧
        (s.capacity < s.stackTop ∧ t = raise .stackOverflow s ∨
         t = { s with stack := v :: rest, ip := s.ip + i.length })))) := by
  by_cases hs : s.stackTop < 2
  · rw [binary_short i op hs] at h
    exact .inl ⟨hs, by cases h; rfl⟩
  · match hst : s.stack with
    | [] | [_] => simp [State.stackTop, hst] at hs
    | a :: b :: rest =>
      refine .inr ⟨a, b, rest, rfl, ?_⟩
      match hop : op b a with
      | .error k =>
        rw [binary_error i op hst hop] at h
        exact .inl ⟨k, rfl, by cases h; rfl⟩
      | .ok v =>
        refine .inr ⟨v, rfl, ?_⟩
        by_cases hc : s.stackTop ≤ s.capacity
        · rw [binary_ok i op hst hc hop] at h
          exact .inr (by cases h; rfl)
        · simp only [binary, pop2_cons_cons hst, bind, Except.bind, hop] at h
          by_cases h1 : rest.length = s.capacity
          · rw [push_of_full _ (by simpa [State.stackTop] using h1)] at h
            exact .inl ⟨by omega, by cases h; rfl⟩
          · rw [push_of_room _ (by simpa [State.stackTop] using h1)] at h
            exact .inr (by cases h; rfl)

theorem jumpIf_cases {i : Instr} {c : Word → Bool} {s t : State} (h : jumpIf i c s = .next t) :
    (s.stackTop < 2 ∧ t = raise .stackUnderflow s) ∨
    (∃ v w rest, s.stack = v :: w :: rest ∧
      (((v.toInt < 0 ∨ s.program.size ≤ v.toInt) ∧ t = raise (.invalidJumpTarget v) s) ∨
       (0 ≤ v.toInt ∧ v.toInt < s.program.size ∧
        t = { s with stack := rest, ip := if c w then v.toInt.toNat else s.ip + i.length }))) := by
  by_cases hs : s.stackTop < 2
  · rw [jumpIf_short i c hs] at h
    exact .inl ⟨hs, by cases h; rfl⟩
  · match hst : s.stack with
    | [] | [_] => simp [State.stackTop, hst] at hs
    | v :: w :: rest =>
      refine .inr ⟨v, w, rest, rfl, ?_⟩
      by_cases hv : v.toInt < 0 ∨ s.program.size ≤ v.toInt
      · rw [jumpIf_error i c hst hv] at h
        exact .inl ⟨hv, by cases h; rfl⟩
      · rw [jumpIf_ok i c hst (by omega) (by omega)] at h
        exact .inr ⟨by omega, by omega, by cases h; rfl⟩

theorem output_cases {i : Instr} {e : Word → Event} {s t : State} (h : output i e s = .next t) :
    (s.stack = [] ∧ t = raise .stackUnderflow s) ∨
    (∃ v rest, s.stack = v :: rest ∧
      t = { s with stack := rest, ip := s.ip + i.length, out := s.out ++ [e v] }) := by
  match hs : s.stack with
  | [] =>
    rw [output_nil i e hs] at h
    exact .inl ⟨rfl, by cases h; rfl⟩
  | v :: rest =>
    rw [output_cons i e hs] at h
    exact .inr ⟨v, rest, rfl, by cases h; rfl⟩

/-! ### Every instruction completes or raises a fault -/

/-- The faults of the operation of an arithmetic instruction. -/
theorem toInt32_error {policy : OverflowPolicy} {v : Int} {k : FaultKind}
    (h : toInt32 policy v = .error k) :
    k = .arithmeticOverflow ∧ policy = .fault ∧ ¬InInt32 v := by
  by_cases hv : InInt32 v
  · rw [toInt32_of_inInt32 hv] at h
    cases h
  · cases policy with
    | wrap => rw [toInt32_wrap_of_not hv] at h; cases h
    | fault => rw [toInt32_fault_of_not hv] at h; cases h; exact ⟨rfl, rfl, hv⟩

/-- A completed instruction that neither jumps nor halts, from what it did to the stack and the output. -/
theorem Completes.of_next {i : Instr} {s : State} {popped pushed rest : List Word} {out : List Event}
    (hs : s.stack = popped ++ rest) (hpop : popped.length = i.pops)
    (hpush : pushed.length = i.pushes)
    (hroom : s.stackTop ≤ s.capacity → (pushed ++ rest).length ≤ s.capacity)
    (hout : out = s.out ∨ (i.emits = true ∧ ∃ e, out = s.out ++ [e]))
    (hj : ¬i.takesJump s) (hh : i ≠ .halt) :
    Completes i s
      { s with stack := pushed ++ rest, ip := s.ip + i.length, out := out } :=
  ⟨⟨popped, pushed, rest, hs, rfl, hpop, hpush⟩, hout, .inl rfl, .inr (.inr ⟨hj, hh, rfl⟩), hroom,
    rfl, rfl, rfl, rfl⟩

/-- A completed arithmetic instruction. -/
theorem Completes.of_binary {i : Instr} {s : State} {a b v : Word} {rest : List Word}
    (hs : s.stack = a :: b :: rest) (hpop : i.pops = 2) (hpush : i.pushes = 1)
    (hj : ¬i.takesJump s) (hh : i ≠ .halt) :
    Completes i s { s with stack := v :: rest, ip := s.ip + i.length } := by
  refine Completes.of_next (popped := [a, b]) (pushed := [v]) (out := s.out) hs hpop.symm hpush.symm
    ?_ (.inl rfl) hj hh
  simp only [State.stackTop, hs, List.length_cons, List.length_append, List.length_nil]
  omega

/-- The arithmetic instructions, from what their operation can raise. -/
theorem binary_completes {i : Instr} {op : Word → Word → Except FaultKind Word} {s t : State}
    (h : binary i op s = .next t) (hop : ∀ b a k, op b a = .error k → Raises i s k)
    (hu : i.mayRaise .stackUnderflow) (hpop : i.pops = 2) (hpush : i.pushes = 1)
    (hj : ¬i.takesJump s) (hh : i ≠ .halt) :
    (∃ k, Raises i s k ∧ t = raise k s) ∨ Completes i s t := by
  rcases binary_cases h with ⟨-, rfl⟩ | ⟨a, b, rest, hs, ⟨k, hk, rfl⟩ | ⟨v, -, ⟨hc, rfl⟩ | rfl⟩⟩
  · exact .inl ⟨_, .listed hu (by simp), rfl⟩
  · exact .inl ⟨k, hop b a k hk, rfl⟩
  · exact .inl ⟨_, .overfull hc, rfl⟩
  · exact .inr (Completes.of_binary hs hpop hpush hj hh)

/-- JZ and JNZ, from the condition under which they jump. -/
theorem jumpIf_completes {i : Instr} {c : Word → Bool} {s t : State} (h : jumpIf i c s = .next t)
    (hu : i.mayRaise .stackUnderflow) (ht : ∀ v, i.mayRaise (.invalidJumpTarget v))
    (hpop : i.pops = 2) (hpush : i.pushes = 0) (hh : i ≠ .halt)
    (hj : ∀ v w rest, s.stack = v :: w :: rest → (i.takesJump s ↔ c w = true)) :
    (∃ k, Raises i s k ∧ t = raise k s) ∨ Completes i s t := by
  rcases jumpIf_cases h with ⟨-, rfl⟩ | ⟨v, w, rest, hs, ⟨-, rfl⟩ | ⟨h0, h1, rfl⟩⟩
  · exact .inl ⟨_, .listed hu (by simp), rfl⟩
  · exact .inl ⟨_, .listed (ht v) (by simp), rfl⟩
  · refine .inr ⟨⟨[v, w], [], rest, hs, rfl, hpop.symm, hpush.symm⟩, .inl rfl, .inl rfl, ?_, ?_,
      rfl, rfl, rfl, rfl⟩
    · by_cases hc : c w = true
      · exact .inl ⟨(hj v w rest hs).mpr hc, v, by simp [hs], h0, h1, by simp [hc]⟩
      · exact .inr (.inr ⟨fun hx => hc ((hj v w rest hs).mp hx), hh, by simp [hc]⟩)
    · simp only [State.stackTop, hs, List.length_cons]
      omega

/-- PRINT and PRINT_CHAR. -/
theorem output_completes {i : Instr} {e : Word → Event} {s t : State} (h : output i e s = .next t)
    (hu : i.mayRaise .stackUnderflow) (hpop : i.pops = 1) (hpush : i.pushes = 0)
    (he : i.emits = true) (hj : ¬i.takesJump s) (hh : i ≠ .halt) :
    (∃ k, Raises i s k ∧ t = raise k s) ∨ Completes i s t := by
  rcases output_cases h with ⟨-, rfl⟩ | ⟨v, rest, hs, rfl⟩
  · exact .inl ⟨_, .listed hu (by simp), rfl⟩
  · refine .inr (Completes.of_next (popped := [v]) (pushed := []) hs hpop.symm hpush.symm ?_
      (.inr ⟨he, e v, rfl⟩) hj hh)
    simp only [State.stackTop, hs, List.length_cons, List.nil_append]
    omega

theorem toInt32_raises {i : Instr} {s : State} {v : Int} {k : FaultKind}
    (hi : i.mayRaise .arithmeticOverflow) (h : toInt32 s.overflowPolicy v = .error k) :
    Raises i s k := by
  obtain ⟨rfl, hp, -⟩ := toInt32_error h
  exact .listed hi fun _ => hp

/-- Every instruction that answers a next state raised a fault of its own (60_exceptions.md R95), or
completed. The overflow in a state with more live elements than slots is in no run. -/
theorem exec_cases {i : Instr} {s t : State} (h : exec i s = .next t) :
    (∃ k, Raises i s k ∧ t = raise k s) ∨ Completes i s t := by
  cases i with
  | push imm8 =>
    rcases execPush_cases h with ⟨-, rfl⟩ | ⟨hs, rfl⟩
    · exact .inl ⟨.stackOverflow, .listed (Or.inr ⟨imm8, rfl⟩) (by simp), rfl⟩
    · refine .inr (Completes.of_next (popped := []) (pushed := [zext32 imm8]) (out := s.out) rfl rfl
        rfl ?_ (.inl rfl) (by simp [Instr.takesJump]) (by simp))
      simp only [State.stackTop, List.length_append, List.length_cons, List.length_nil] at hs ⊢
      omega
  | pop =>
    match hs : s.stack with
    | [] =>
      rw [exec, execPop, pop_nil hs] at h
      exact .inl ⟨.stackUnderflow, .listed (by simp [Instr.mayRaise]) (by simp), by cases h; rfl⟩
    | v :: rest =>
      rw [exec, execPop, pop_cons hs] at h
      cases h
      refine .inr (Completes.of_next (i := .pop) (popped := [v]) (pushed := []) (out := s.out) hs rfl
        rfl ?_ (.inl rfl) (by simp [Instr.takesJump]) (by simp))
      simp only [State.stackTop, hs, List.length_cons, List.nil_append]
      omega
  | dup =>
    rcases execDup_cases h with ⟨-, rfl⟩ | ⟨x, rest, hs, ⟨-, rfl⟩ | ⟨-, hc, rfl⟩⟩
    · exact .inl ⟨_, .listed (by simp [Instr.mayRaise]) (by simp), rfl⟩
    · exact .inl ⟨_, .listed (by simp [Instr.mayRaise]) (by simp), rfl⟩
    · refine .inr (Completes.of_next (i := .dup) (popped := [x]) (pushed := [x, x]) (out := s.out) hs
        rfl rfl ?_ (.inl rfl) (by simp [Instr.takesJump]) (by simp))
      simp only [State.stackTop, hs, List.length_append, List.length_cons, List.length_nil] at hc ⊢
      omega
  | swap =>
    rcases execSwap_cases h with ⟨-, rfl⟩ | ⟨a, b, rest, hs, ⟨hc, rfl⟩ | rfl⟩
    · exact .inl ⟨_, .listed (by simp [Instr.mayRaise]) (by simp), rfl⟩
    · exact .inl ⟨_, .overfull hc, rfl⟩
    · refine .inr (Completes.of_next (i := .swap) (popped := [a, b]) (pushed := [b, a]) (out := s.out)
        hs rfl rfl ?_ (.inl rfl) (by simp [Instr.takesJump]) (by simp))
      simp only [State.stackTop, hs, List.length_append, List.length_cons, List.length_nil]
      omega
  | add =>
    rw [exec_add] at h
    exact binary_completes h (fun _ _ _ => toInt32_raises (by simp [Instr.mayRaise]))
      (by simp [Instr.mayRaise]) rfl rfl (by simp [Instr.takesJump]) (by simp)
  | sub =>
    rw [exec_sub] at h
    exact binary_completes h (fun _ _ _ => toInt32_raises (by simp [Instr.mayRaise]))
      (by simp [Instr.mayRaise]) rfl rfl (by simp [Instr.takesJump]) (by simp)
  | mul =>
    rw [exec_mul] at h
    exact binary_completes h (fun _ _ _ => toInt32_raises (by simp [Instr.mayRaise]))
      (by simp [Instr.mayRaise]) rfl rfl (by simp [Instr.takesJump]) (by simp)
  | div =>
    rw [exec_div] at h
    refine binary_completes h (fun b a k hk => ?_)
      (by simp [Instr.mayRaise]) rfl rfl (by simp [Instr.takesJump]) (by simp)
    by_cases ha : a.toInt = 0
    · rw [checkDivisor_zero ha] at hk
      cases hk
      exact .listed (by simp [Instr.mayRaise]) (by simp)
    · rw [checkDivisor_nonzero ha] at hk
      exact toInt32_raises (by simp [Instr.mayRaise]) hk
  | mod =>
    rw [exec_mod] at h
    refine binary_completes h (fun b a k hk => ?_)
      (by simp [Instr.mayRaise]) rfl rfl (by simp [Instr.takesJump]) (by simp)
    by_cases ha : a.toInt = 0
    · rw [checkDivisor_zero ha] at hk
      cases hk
      exact .listed (by simp [Instr.mayRaise]) (by simp)
    · rw [checkDivisor_nonzero ha] at hk
      cases hk
  | jmp =>
    rcases execJmp_cases h with ⟨-, rfl⟩ | ⟨v, rest, hs, ⟨-, rfl⟩ | ⟨h0, h1, rfl⟩⟩
    · exact .inl ⟨_, .listed (by simp [Instr.mayRaise]) (by simp), rfl⟩
    · exact .inl ⟨_, .listed (by simp [Instr.mayRaise]) (by simp), rfl⟩
    · refine .inr ⟨⟨[v], [], rest, hs, rfl, rfl, rfl⟩, .inl rfl, .inl rfl,
        .inl ⟨.inl rfl, v, by simp [hs], h0, h1, rfl⟩, ?_, rfl, rfl, rfl, rfl⟩
      simp only [State.stackTop, hs, List.length_cons]
      omega
  | jz =>
    rw [exec_jz] at h
    refine jumpIf_completes h (by simp [Instr.mayRaise]) (by simp [Instr.mayRaise]) rfl rfl
      (by simp) fun v w rest hs => ?_
    simp [Instr.takesJump, hs, isZero]
  | jnz =>
    rw [exec_jnz] at h
    refine jumpIf_completes h (by simp [Instr.mayRaise]) (by simp [Instr.mayRaise]) rfl rfl
      (by simp) fun v w rest hs => ?_
    simp [Instr.takesJump, hs, isZero]
  | nop =>
    cases h
    exact .inr (Completes.of_next (i := .nop) (popped := []) (pushed := []) (out := s.out) rfl rfl rfl
      id (.inl rfl) (by simp [Instr.takesJump]) (by simp))
  | print =>
    rw [exec_print] at h
    exact output_completes h (by simp [Instr.mayRaise]) rfl rfl rfl (by simp [Instr.takesJump])
      (by simp)
  | printChar =>
    rw [exec_printChar] at h
    exact output_completes h (by simp [Instr.mayRaise]) rfl rfl rfl (by simp [Instr.takesJump])
      (by simp)
  | halt =>
    cases h
    exact .inr ⟨⟨[], [], s.stack, rfl, rfl, rfl, rfl⟩, .inl rfl, .inr ⟨rfl, rfl⟩,
      .inr (.inl ⟨rfl, rfl⟩), id, rfl, rfl, rfl, rfl⟩

/-- Every instruction answers a next state, in every state: nothing is refused and nothing is stuck
(93_implementation_defined.md). -/
theorem exec_total (i : Instr) (s : State) : ∃ t, exec i s = .next t := by
  cases i with
  | nop => exact ⟨_, rfl⟩
  | halt => exact ⟨_, rfl⟩
  | _ => exact conclude_total s _

end Sys2Proof.Machine
end

