-- ==== Sys2Proof/Laws/Memory.lean ====
section
/-! SUPPORT. The program memory: every operation keeps the canonical form, a read after a placement
gives the byte placed and leaves every other address alone, and a memory built from bytes reads as
those bytes. -/

namespace Sys2Proof.Machine.Memory

/-! ### Placing a byte -/

theorem cellAt_putCell_same (a : Nat) (v : Byte) (cells : List Host.Cell)
    (h : cells.Pairwise fun c d => c.1 < d.1) : cellAt (putCell a v cells) a = v := by
  have absent : ∀ cs : List Host.Cell, (∀ c ∈ cs, a < c.1) → cellAt cs a = unlisted := by
    intro cs
    induction cs with
    | nil => intro _; rfl
    | cons c cs ih =>
      intro hc
      have := hc c (by simp)
      rw [cellAt, if_neg (by omega)]
      exact ih fun d hd => hc d (by simp [hd])
  induction cells with
  | nil => by_cases hv : v = unlisted <;> simp [putCell, cellAt, hv]
  | cons c cells ih =>
    obtain ⟨x, w⟩ := c
    rw [List.pairwise_cons] at h
    simp only [putCell]
    split
    · rw [cellAt, if_neg (by omega)]
      exact ih h.2
    · split
      · subst x
        split
        · subst v; exact absent _ h.1
        · simp [cellAt]
      · split
        · subst v
          exact absent _ (by
            intro d hd
            rcases List.mem_cons.mp hd with rfl | hd
            · simp only; omega
            · have := h.1 d hd
              omega)
        · simp [cellAt]

theorem cellAt_putCell_other {a b : Nat} (v : Byte) (cells : List Host.Cell) (h : a ≠ b) :
    cellAt (putCell a v cells) b = cellAt cells b := by
  induction cells with
  | nil => by_cases hv : v = unlisted <;> simp [putCell, cellAt, hv, h]
  | cons c cells ih =>
    obtain ⟨x, w⟩ := c
    simp only [putCell]
    split
    · simp [cellAt, ih]
    · split
      · subst x
        split <;> simp [cellAt, h]
      · split <;> simp [cellAt, h]

theorem mem_putCell {a : Nat} {v : Byte} {cells : List Host.Cell} {c : Host.Cell}
    (h : c ∈ putCell a v cells) : c ∈ cells ∨ (c = (a, v) ∧ v ≠ unlisted) := by
  induction cells with
  | nil =>
    simp only [putCell] at h
    split at h <;> simp_all
  | cons d cells ih =>
    obtain ⟨x, w⟩ := d
    simp only [putCell] at h
    split at h
    · rcases List.mem_cons.mp h with rfl | h
      · simp
      · rcases ih h with h | h <;> simp_all
    · split at h
      · split at h <;> simp_all
        tauto
      · split at h <;> simp_all
        tauto

theorem putCell_sorted (a : Nat) (v : Byte) (cells : List Host.Cell)
    (h : cells.Pairwise fun c d => c.1 < d.1) :
    (putCell a v cells).Pairwise fun c d => c.1 < d.1 := by
  induction cells with
  | nil => by_cases hv : v = unlisted <;> simp [putCell, hv]
  | cons c cells ih =>
    obtain ⟨x, w⟩ := c
    have hh := h
    rw [List.pairwise_cons] at h
    simp only [putCell]
    split
    · refine List.pairwise_cons.mpr ⟨fun d hd => ?_, ih h.2⟩
      rcases mem_putCell hd with hd | ⟨rfl, _⟩
      · exact h.1 d hd
      · assumption
    · split
      · subst x
        split
        · exact h.2
        · exact List.pairwise_cons.mpr ⟨h.1, h.2⟩
      · split
        · exact hh
        · refine List.pairwise_cons.mpr ⟨fun d hd => ?_, hh⟩
          rcases List.mem_cons.mp hd with rfl | hd
          · simp only; omega
          · have := h.1 d hd
            simp only at this ⊢
            omega

/-- Placing a byte keeps the canonical form. -/
theorem place_wf {m : Memory} (h : m.wf) (a : Nat) (v : Byte) : (m.place a v).wf := by
  refine ⟨putCell_sorted a v m.cells h.1, fun c hc => ?_⟩
  rcases mem_putCell hc with hc | ⟨rfl, hv⟩
  · have := h.2 c hc
    exact ⟨by simp only [place]; omega, this.2⟩
  · exact ⟨by simp only [place]; omega, hv⟩

theorem placeAll_wf {m : Memory} (h : m.wf) (a : Nat) (bs : List Byte) : (m.placeAll a bs).wf := by
  induction bs generalizing m a with
  | nil => exact h
  | cons b bs ih => exact ih (place_wf h a b) (a + 1)

theorem read_place_same {m : Memory} (h : m.wf) (a : Nat) (v : Byte) :
    (m.place a v).read a = some v := by
  rw [read, if_pos (by simp only [place]; omega)]
  exact congrArg some (cellAt_putCell_same a v m.cells h.1)

/-- A placement leaves the byte at every other address of the program alone. -/
theorem read_place_other {m : Memory} {a b : Nat} (v : Byte) (h : a ≠ b) (hb : b < m.size) :
    (m.place a v).read b = m.read b := by
  rw [read, read, if_pos (by simp only [place]; omega), if_pos hb]
  exact congrArg some (cellAt_putCell_other v m.cells h)

/-! ### A memory built from bytes -/

theorem cellsFrom_mem {a : Nat} {bs : List Byte} {c : Host.Cell} (h : c ∈ cellsFrom a bs) :
    a ≤ c.1 ∧ c.1 < a + bs.length ∧ c.2 ≠ unlisted := by
  induction bs generalizing a with
  | nil => simp [cellsFrom] at h
  | cons b bs ih =>
    rw [cellsFrom] at h
    have step : c ∈ cellsFrom (a + 1) bs → a ≤ c.1 ∧ c.1 < a + (b :: bs).length ∧ c.2 ≠ unlisted := by
      intro hc
      have := ih hc
      simp only [List.length_cons]
      exact ⟨by omega, by omega, this.2.2⟩
    split at h
    · exact step h
    · rcases List.mem_cons.mp h with rfl | h
      · exact ⟨le_refl _, by simp, by assumption⟩
      · exact step h

theorem cellsFrom_sorted (a : Nat) (bs : List Byte) :
    (cellsFrom a bs).Pairwise fun c d => c.1 < d.1 := by
  induction bs generalizing a with
  | nil => simp [cellsFrom]
  | cons b bs ih =>
    rw [cellsFrom]
    split
    · exact ih _
    · exact List.pairwise_cons.mpr ⟨fun d hd => (cellsFrom_mem hd).1, ih _⟩

/-- The memory of a program is in canonical form. -/
theorem ofBytes_wf (bs : List Byte) : (ofBytes bs).wf :=
  ⟨cellsFrom_sorted 0 bs, fun _ hc => ⟨by simpa [ofBytes] using (cellsFrom_mem hc).2.1, (cellsFrom_mem hc).2.2⟩⟩

theorem cellAt_cellsFrom_of_lt {a x : Nat} (bs : List Byte) (h : x < a) :
    cellAt (cellsFrom a bs) x = unlisted := by
  induction bs generalizing a with
  | nil => rfl
  | cons b bs ih =>
    rw [cellsFrom]
    split
    · exact ih (by omega)
    · rw [cellAt, if_neg (by omega)]
      exact ih (by omega)

theorem cellAt_cellsFrom (a k : Nat) (bs : List Byte) :
    cellAt (cellsFrom a bs) (a + k) = bs.getD k unlisted := by
  induction bs generalizing a k with
  | nil => rfl
  | cons b bs ih =>
    rw [cellsFrom]
    cases k with
    | zero =>
      split
      · subst b
        simpa using cellAt_cellsFrom_of_lt bs (Nat.lt_succ_self a)
      · simp [cellAt]
    | succ k =>
      have := ih (a + 1) k
      rw [Nat.add_right_comm, Nat.add_assoc] at this
      split
      · simpa using this
      · rw [cellAt, if_neg (by omega)]
        simpa using this

/-- A memory built from bytes reads as those bytes, and has no address past them. -/
theorem read_ofBytes (bs : List Byte) (a : Nat) : (ofBytes bs).read a = bs[a]? := by
  have h := cellAt_cellsFrom 0 a bs
  rw [Nat.zero_add] at h
  by_cases ha : a < bs.length
  · rw [read, if_pos (by simpa [ofBytes] using ha)]
    simp [ofBytes, h, ha]
  · rw [read, if_neg (by simpa [ofBytes] using ha)]
    simp [List.getElem?_eq_none (Nat.le_of_not_lt ha)]

theorem bytesFrom_length (m : Memory) (a : Nat) : (m.bytesFrom a).length = m.size - a := by
  simp [bytesFrom]

/-- The bytes from an address on begin with the byte at that address. -/
theorem bytesFrom_eq_cons {m : Memory} {a : Nat} (h : a < m.size) :
    m.bytesFrom a = cellAt m.cells a :: m.bytesFrom (a + 1) := by
  rw [bytesFrom, bytesFrom, show m.size - a = (m.size - (a + 1)) + 1 by omega, List.range_succ_eq_map]
  simp only [List.map_cons, List.map_map, Nat.add_zero]
  congr 1
  apply List.map_congr_left
  intro k _
  exact congrArg (cellAt m.cells) (show a + (k + 1) = a + 1 + k by omega)

theorem bytesFrom_eq_nil {m : Memory} {a : Nat} (h : m.size ≤ a) : m.bytesFrom a = [] := by
  simp [bytesFrom, Nat.sub_eq_zero_of_le h]

/-- The bytes from an address on, of a memory built from bytes. -/
theorem bytesFrom_ofBytes (bs : List Byte) (a : Nat) : (ofBytes bs).bytesFrom a = bs.drop a := by
  apply List.ext_getElem?
  intro k
  have h := cellAt_cellsFrom 0 (a + k) bs
  rw [Nat.zero_add] at h
  by_cases hk : k < bs.length - a
  · have : a + k < bs.length := by omega
    simp [bytesFrom, ofBytes, hk, h, this]
  · simp [bytesFrom, ofBytes, hk]

end Sys2Proof.Machine.Memory
end

