-- ==== Sys2Proof/Laws/PerInstr.lean ====
section
/-! SUPPORT. Statements made for each instruction as syntax, one lemma per constructor of Instr. -/

/-! ### RoundTrip: decoding an encoded instruction gives it back, and the bytes after it -/

namespace Sys2Proof.Laws.RoundTrip

/-- Decoding the bytes of a well-formed instruction gives the instruction and the bytes after it. -/
def Statement (i : Instr) : Prop :=
  i.wellFormed = true → ∀ rest : List Byte, decode (encode i ++ rest) = .ok (i, rest)

theorem push (imm8 : Byte) : Statement (.push imm8) := fun _ _ => rfl
theorem pop : Statement .pop := fun _ _ => rfl
theorem dup : Statement .dup := fun _ _ => rfl
theorem swap : Statement .swap := fun _ _ => rfl
theorem add : Statement .add := fun _ _ => rfl
theorem sub : Statement .sub := fun _ _ => rfl
theorem mul : Statement .mul := fun _ _ => rfl
theorem div : Statement .div := fun _ _ => rfl
theorem mod : Statement .mod := fun _ _ => rfl
theorem jmp : Statement .jmp := fun _ _ => rfl
theorem jz : Statement .jz := fun _ _ => rfl
theorem jnz : Statement .jnz := fun _ _ => rfl
theorem nop : Statement .nop := fun _ _ => rfl
theorem print : Statement .print := fun _ _ => rfl
theorem printChar : Statement .printChar := fun _ _ => rfl
theorem halt : Statement .halt := fun _ _ => rfl

end Sys2Proof.Laws.RoundTrip

/-! ### EncodedLength: the encoding has the length of 30_encoding.md R51 -/

namespace Sys2Proof.Laws.EncodedLength

/-- The bytes of an instruction are as many as its length. -/
def Statement (i : Instr) : Prop := (encode i).length = i.length

theorem push (imm8 : Byte) : Statement (.push imm8) := rfl
theorem pop : Statement .pop := rfl
theorem dup : Statement .dup := rfl
theorem swap : Statement .swap := rfl
theorem add : Statement .add := rfl
theorem sub : Statement .sub := rfl
theorem mul : Statement .mul := rfl
theorem div : Statement .div := rfl
theorem mod : Statement .mod := rfl
theorem jmp : Statement .jmp := rfl
theorem jz : Statement .jz := rfl
theorem jnz : Statement .jnz := rfl
theorem nop : Statement .nop := rfl
theorem print : Statement .print := rfl
theorem printChar : Statement .printChar := rfl
theorem halt : Statement .halt := rfl

end Sys2Proof.Laws.EncodedLength
end

