-- ==== Sys2Proof/Laws/Step.lean ====
section
/-! SUPPORT. What `fetch` and `step` can answer, said once. -/

namespace Sys2Proof.Machine

/-! ### fetch -/

theorem fetch_past_end {s : State} (h : s.program.size ≤ s.ip) :
    fetch s = .error .programBoundsExceeded := by
  rw [fetch, memRead_of_ge h]
  rfl

theorem fetch_illegal {s : State} {b : Byte} {e : DecodeError} (h : memRead s s.ip = .ok b)
    (hb : decodeOpcode b = .error e) : fetch s = .error (.invalidOpcode b) := by
  obtain rfl := decodeOpcode_error hb
  rw [fetch, h]
  simp only [bind, Except.bind, hb]
  rfl

theorem fetch_complete {s : State} {b : Byte} {i : Instr} (h : memRead s s.ip = .ok b)
    (hb : decodeOpcode b = .ok (.complete i)) : fetch s = .ok i := by
  rw [fetch, h]
  simp only [bind, Except.bind, hb]
  rfl

theorem fetch_push {s : State} {imm8 : Byte} (h : memRead s s.ip = .ok 0x01)
    (h' : memRead s (s.ip + 1) = .ok imm8) : fetch s = .ok (.push imm8) := by
  rw [fetch, h]
  simp only [bind, Except.bind, show decodeOpcode 0x01 = .ok .pushOpcode from rfl, h']
  rfl

theorem fetch_push_truncated {s : State} (h : memRead s s.ip = .ok 0x01)
    (h' : s.program.size ≤ s.ip + 1) : fetch s = .error .programBoundsExceeded := by
  rw [fetch, h]
  simp only [bind, Except.bind, show decodeOpcode 0x01 = .ok .pushOpcode from rfl, memRead_of_ge h']

/-- Fetching is decoding the program's bytes from `ip` on, with the decoder's errors read as faults. -/
theorem fetch_eq_decode (s : State) :
    fetch s = match decode (s.program.bytesFrom s.ip) with
      | .ok (i, _) => .ok i
      | .error e => .error (faultOfDecodeError e) := by
  by_cases h0 : s.ip < s.program.size
  · have hr := memRead_of_lt h0
    rw [Memory.bytesFrom_eq_cons h0]
    rcases decode_cases (rest := s.program.bytesFrom (s.ip + 1)) rfl with
      ⟨i, hd, hr'⟩ | ⟨hb, hrest, hr'⟩ | ⟨hb, imm8, rest', hrest, hr'⟩ | ⟨hd, hr'⟩
    · rw [hr', fetch_complete hr hd]
    · rw [hr']
      rw [hb] at hr
      refine fetch_push_truncated hr ?_
      have := congrArg List.length hrest
      rw [Memory.bytesFrom_length, List.length_nil] at this
      omega
    · rw [hr']
      rw [hb] at hr
      have h1 : s.ip + 1 < s.program.size := by
        have := congrArg List.length hrest
        rw [Memory.bytesFrom_length, List.length_cons] at this
        omega
      rw [Memory.bytesFrom_eq_cons h1] at hrest
      obtain ⟨rfl, -⟩ := List.cons.inj hrest
      exact fetch_push hr (memRead_of_lt h1)
    · rw [hr', fetch_illegal hr hd]
      rfl
  · rw [Memory.bytesFrom_eq_nil (by omega), fetch_past_end (by omega)]
    rfl

/-- A fetched instruction lies whole in the program. -/
theorem fetch_ok_bounds {s : State} {i : Instr} (h : fetch s = .ok i) :
    s.ip + i.length ≤ s.program.size ∧ s.ip < s.program.size := by
  by_cases h0 : s.ip < s.program.size
  · have hr := memRead_of_lt h0
    refine ⟨?_, h0⟩
    match hd : decodeOpcode (Memory.cellAt s.program.cells s.ip) with
    | .error e => rw [fetch_illegal hr hd] at h; cases h
    | .ok (.complete j) =>
      rw [fetch_complete hr hd] at h
      cases h
      rw [(decodeOpcode_complete hd).2]
      omega
    | .ok .pushOpcode =>
      rw [decodeOpcode_pushOpcode hd] at hr
      by_cases h1 : s.ip + 1 < s.program.size
      · rw [fetch_push hr (memRead_of_lt h1)] at h
        cases h
        simp only [Instr.length]
        omega
      · rw [fetch_push_truncated hr (by omega)] at h
        cases h
  · rw [fetch_past_end (by omega)] at h
    cases h

/-! ### step -/

theorem step_of_fetch {s : State} {i : Instr} (h : s.status = .running) (hf : fetch s = .ok i) :
    step s = exec i s := by
  rw [step, stopOf_running h, hf]

theorem step_of_fetch_error {s : State} {k : FaultKind} (h : s.status = .running)
    (hf : fetch s = .error k) : step s = .next (raise k s) := by
  rw [step, stopOf_running h, hf]
  rfl

/-- A step with a next state ran in Running, and either its fetch raised a fault or it ran the fetched
instruction. -/
theorem step_next_cases {s t : State} (h : step s = .next t) :
    s.status = .running ∧
      ((∃ k, fetch s = .error k ∧ t = raise k s) ∨ (∃ i, fetch s = .ok i ∧ exec i s = .next t)) := by
  unfold step at h
  match hs : stopOf s with
  | some f => rw [hs] at h; cases h
  | none =>
    rw [hs] at h
    refine ⟨stopOf_eq_none_iff.mp hs, ?_⟩
    match hf : fetch s with
    | .error k => rw [hf] at h; exact .inl ⟨k, rfl, by cases h; rfl⟩
    | .ok i => rw [hf] at h; exact .inr ⟨i, rfl, h⟩

end Sys2Proof.Machine
end

