-- ==== Sys2Proof/Laws/Run.lean ====
section
/-! SUPPORT. Runs of many steps: a run taken apart at its first and at its last step, and the induction
along a run, packaged once. -/

namespace Sys2Proof.Machine

/-- A run of `k + 1` steps of any machine is one step and a run of `k` steps from there. -/
theorem run_succ_first_of (M : Host.Core) (k : Nat) (s u : M.State) :
    M.run (k + 1) s = .next u ↔ ∃ t, M.step s = .next t ∧ M.run k t = .next u := by
  rw [Host.Core.run]
  cases M.step s <;> simp

/-- A run of `k + 1` steps is one step and a run of `k` steps from there. -/
theorem run_succ_first (k : Nat) (s u : State) :
    core.run (k + 1) s = .next u ↔ ∃ t : State, step s = .next t ∧ core.run k t = .next u :=
  run_succ_first_of core k s u

/-- A run of `k + 1` steps is a run of `k` steps and one step from its end. -/
theorem run_succ_last (k : Nat) (s u : State) :
    core.run (k + 1) s = .next u ↔ ∃ t : State, core.run k s = .next t ∧ step t = .next u := by
  induction k generalizing s with
  | zero =>
    rw [run_succ_first]
    constructor
    · rintro ⟨t, h, h'⟩
      cases h'
      exact ⟨s, rfl, h⟩
    · rintro ⟨t, h, h'⟩
      cases h
      exact ⟨u, h', rfl⟩
  | succ k ih =>
    rw [run_succ_first]
    constructor
    · rintro ⟨t, h, h'⟩
      obtain ⟨v, hv, hv'⟩ := (ih t).mp h'
      exact ⟨v, (run_succ_first k s v).mpr ⟨t, h, hv⟩, hv'⟩
    · rintro ⟨v, hv, hv'⟩
      obtain ⟨t, h, h'⟩ := (run_succ_first k s v).mp hv
      exact ⟨t, h, (ih t).mpr ⟨v, h', hv'⟩⟩

/-- What holds of the first state of a run, and of the state after one more step whenever it holds
before, holds of the state after any number of steps. -/
theorem run_induction {P : Nat → State → Prop} {s : State} (start : P 0 s)
    (more : ∀ k t u, P k t → step t = .next u → P (k + 1) u) (k : Nat) (u : State)
    (h : core.run k s = .next u) : P k u := by
  induction k generalizing u with
  | zero =>
    cases h
    exact start
  | succ k ih =>
    obtain ⟨t, ht, hu⟩ := (run_succ_last k s u).mp h
    exact more k t u (ih t ht) hu

end Sys2Proof.Machine
end

