-- ==== Sys2Proof/Tests/Slice0.lean ====
section
/-! SUPPORT. Tests, with expected results from spec/95_test_vectors.md and the worked examples of the
rules, and the witnesses that the hypotheses of the statements can be met. -/

namespace Sys2Proof.Tests

open Sys2Proof.Machine

/-- A machine in Running with the given parameters, program and `ip`, and a stack written bottom to top,
as the spec writes stacks (00_scope.md R12). -/
def machine (cap : Nat) (pol : OverflowPolicy) (prog : List Byte) (ip : Nat) (bottomUp : List Int) :
    State :=
  { State.boot cap pol prog 0 with
    ip := ip
    stack := (bottomUp.map (BitVec.ofInt 32)).reverse }

/-- Capacity 4 and a program of 20 bytes, as in most vectors, for running one instruction at `ip` 10. -/
def small (pol : OverflowPolicy) (bottomUp : List Int) : State :=
  machine 4 pol (List.replicate 20 0x0D) 10 bottomUp

/-- The next state of an outcome, if it has one. -/
def after : Outcome → Option State
  | .next t => some t
  | .fault _ => none
  | .refused _ => none

/-- The stack after an outcome, bottom to top, with `ip`. -/
def stackAndIp (o : Outcome) : Option (List Int × Nat) :=
  (after o).map fun t => ((t.stack.map BitVec.toInt).reverse, t.ip)

/-- The status and the output stream after an outcome. -/
def statusAndOut (o : Outcome) : Option (Status × List Event) :=
  (after o).map fun t => (t.status, t.out)

/-! ### WellFormed: the one check refuses an operand that does not fit (R57) -/

theorem test_push_operand_256_refused : Instr.pushOperand? 256 = none := by decide
theorem test_push_operand_255 : Instr.pushOperand? 255 = some (.push 0xFF) := by decide

/-! ### Decode: words written out bit by bit from 30_encoding.md R48 and R50 -/

theorem test_decode_push : decode [0b00000001, 0b10000000] = .ok (.push 128, []) := rfl
theorem test_decode_pop : decode [0b00000010] = .ok (.pop, []) := rfl
theorem test_decode_dup : decode [0b00000011] = .ok (.dup, []) := rfl
theorem test_decode_swap : decode [0b00000100] = .ok (.swap, []) := rfl
theorem test_decode_add : decode [0b00000101] = .ok (.add, []) := rfl
theorem test_decode_sub : decode [0b00000110] = .ok (.sub, []) := rfl
theorem test_decode_mul : decode [0b00000111] = .ok (.mul, []) := rfl
theorem test_decode_div : decode [0b00001000] = .ok (.div, []) := rfl
theorem test_decode_mod : decode [0b00001001] = .ok (.mod, []) := rfl
theorem test_decode_jmp : decode [0b00001010] = .ok (.jmp, []) := rfl
theorem test_decode_jz : decode [0b00001011] = .ok (.jz, []) := rfl
theorem test_decode_jnz : decode [0b00001100] = .ok (.jnz, []) := rfl
theorem test_decode_nop : decode [0b00001101] = .ok (.nop, []) := rfl
theorem test_decode_print : decode [0b00001110] = .ok (.print, []) := rfl
theorem test_decode_print_char : decode [0b00001111] = .ok (.printChar, []) := rfl
theorem test_decode_halt : decode [0b00010000] = .ok (.halt, []) := rfl
/-- V2 to V5. -/
theorem test_decode_illegal :
    decode [0x00] = .error (.invalidOpcode 0x00) ∧ decode [0x11] = .error (.invalidOpcode 0x11) ∧
    decode [0x80] = .error (.invalidOpcode 0x80) ∧ decode [0xFF] = .error (.invalidOpcode 0xFF) :=
  ⟨rfl, rfl, rfl, rfl⟩
/-- S5: a PUSH without its immediate. -/
theorem test_decode_truncated : decode [0x01] = .error .outOfBytes := rfl
/-- The countdown loop of X7 decodes to the source's program. -/
theorem test_decode_program :
    decodeProgram [0x01, 0x03, 0x03, 0x0E, 0x01, 0x01, 0x06, 0x03, 0x01, 0x02, 0x0C, 0x02, 0x10] =
      .ok [.push 3, .dup, .print, .push 1, .sub, .dup, .push 2, .jnz, .pop, .halt] := rfl
theorem test_table_word :
    decodeTableWord 16 0x2A01 = some (.push 0x2A) ∧ decodeTableWord 8 0x2A01 = some (.push 0) ∧
    decodeTableWord 8 0x10 = some .halt ∧ decodeTableWord 8 0x11 = none := ⟨rfl, rfl, rfl, rfl⟩

/-! ### The step, from reset and at the edges of the program -/

/-- A word placed after reset is run by the next step. -/
theorem test_reset_runs_placed_push :
    stackAndIp (step (State.reset.withFetchWord 16 0x2A01)) = some ([42], 2) := by decide
theorem test_reset_runs_placed_halt :
    statusAndOut (step (State.reset.withFetchWord 8 0x10)) = some (.halted, []) := by decide
/-- V1: an empty program. -/
theorem test_step_empty_program :
    statusAndOut (step State.reset) = some (.faulted .programBoundsExceeded, []) := by decide
/-- V3. -/
theorem test_step_invalid_opcode :
    statusAndOut (step (machine 4 .wrap [0x11] 0 [])) = some (.faulted (.invalidOpcode 0x11), []) := by
  decide
/-- S7: the immediate is fetched before the stack is checked. -/
theorem test_step_truncated_push_on_full_stack :
    statusAndOut (step (machine 1 .wrap [0x01] 0 [9])) =
      some (.faulted .programBoundsExceeded, []) := by decide
/-- V9: the immediate byte of a PUSH, jumped to, is decoded as an opcode. -/
theorem test_step_at_an_immediate_byte :
    statusAndOut (step (machine 4 .wrap [0x01, 0x10, 0x01, 0x01, 0x0A] 1 [16])) =
      some (.halted, []) := by decide

/-! ### Stack family -/

/-- S2. -/
theorem test_push_zero_extends :
    stackAndIp (step (machine 4 .wrap [0x01, 0xFF] 0 [])) = some ([255], 2) := by decide
/-- S6. -/
theorem test_push_overflow :
    statusAndOut (step (machine 1 .wrap [0x01, 0x05] 0 [9])) =
      some (.faulted .stackOverflow, []) := by decide
/-- S9. -/
theorem test_pop : stackAndIp (exec .pop (small .wrap [5, 7])) = some ([5], 11) := by decide
/-- S11. -/
theorem test_pop_underflow :
    statusAndOut (exec .pop (small .wrap [])) = some (.faulted .stackUnderflow, []) := by decide
/-- S13. -/
theorem test_dup : stackAndIp (exec .dup (small .wrap [1, -5])) = some ([1, -5, -5], 11) := by decide
/-- S17. -/
theorem test_dup_capacity_one :
    statusAndOut (exec .dup (machine 1 .wrap [0x03] 0 [1])) = some (.faulted .stackOverflow, []) := by
  decide
/-- S19. -/
theorem test_swap : stackAndIp (exec .swap (small .wrap [9, 1, 2])) = some ([9, 2, 1], 11) := by decide
/-- S21: on a full stack. -/
theorem test_swap_full :
    stackAndIp (exec .swap (machine 2 .wrap [0x04] 0 [1, 2])) = some ([2, 1], 1) := by decide

/-! ### Arithmetic family -/

/-- A3. -/
theorem test_add_wraps :
    stackAndIp (exec .add (small .wrap [2147483647, 1])) = some ([-2147483648], 11) := by decide
/-- A3, the other policy. -/
theorem test_add_overflow_fault :
    statusAndOut (exec .add (small .fault [2147483647, 1])) =
      some (.faulted .arithmeticOverflow, []) := by decide
/-- A9. -/
theorem test_sub_order : stackAndIp (exec .sub (small .wrap [3, 10])) = some ([-7], 11) := by decide
/-- A12. -/
theorem test_sub_wraps :
    stackAndIp (exec .sub (small .wrap [-2147483648, 1])) = some ([2147483647], 11) := by decide
/-- A21. -/
theorem test_mul_wraps :
    stackAndIp (exec .mul (small .wrap [46341, 46341])) = some ([-2147479015], 11) := by decide
/-- A17. -/
theorem test_mul_negative : stackAndIp (exec .mul (small .fault [-6, -7])) = some ([42], 11) := by decide
/-- A25. -/
theorem test_div_truncates : stackAndIp (exec .div (small .wrap [-7, 2])) = some ([-3], 11) := by decide
/-- A32, A33. -/
theorem test_div_corners :
    stackAndIp (exec .div (small .wrap [-2147483648, -1])) = some ([-2147483648], 11) ∧
    statusAndOut (exec .div (small .wrap [5, 0])) = some (.faulted .divisionByZero, []) := by decide
/-- A38. -/
theorem test_mod_sign : stackAndIp (exec .mod (small .wrap [7, -2])) = some ([1], 11) := by decide
/-- A44, A47. -/
theorem test_mod_corners :
    stackAndIp (exec .mod (small .fault [-2147483648, -1])) = some ([0], 11) ∧
    statusAndOut (exec .mod (small .wrap [0])) = some (.faulted .stackUnderflow, []) := by decide

/-! ### Control family -/

/-- C3. -/
theorem test_jmp : stackAndIp (exec .jmp (small .wrap [19])) = some ([], 19) := by decide
/-- C5, C6. -/
theorem test_jmp_out_of_range :
    statusAndOut (exec .jmp (small .wrap [20])) = some (.faulted (.invalidJumpTarget 20), []) ∧
    statusAndOut (exec .jmp (small .wrap [-1])) =
      some (.faulted (.invalidJumpTarget 0xFFFFFFFF), []) := by decide
/-- C12, C11. -/
theorem test_jz :
    stackAndIp (exec .jz (small .wrap [4, 0, 5])) = some ([4], 5) ∧
    stackAndIp (exec .jz (small .wrap [-1, 5])) = some ([], 11) := by decide
/-- C14, C17: the target is checked when the jump is not taken, after both pops. -/
theorem test_jz_faults :
    statusAndOut (exec .jz (small .wrap [1, 20])) = some (.faulted (.invalidJumpTarget 20), []) ∧
    statusAndOut (exec .jz (small .wrap [200])) = some (.faulted .stackUnderflow, []) := by decide
/-- C20, C21. -/
theorem test_jnz :
    stackAndIp (exec .jnz (small .wrap [-1, 5])) = some ([], 5) ∧
    stackAndIp (exec .jnz (small .wrap [0, 5])) = some ([], 11) := by decide
/-- C22. -/
theorem test_jnz_checks_untaken_target :
    statusAndOut (exec .jnz (small .wrap [0, 99])) =
      some (.faulted (.invalidJumpTarget 99), []) := by decide

/-! ### System and output family -/

/-- O2. -/
theorem test_nop : stackAndIp (exec .nop (small .wrap [1, 2])) = some ([1, 2], 11) := by decide
/-- O6. -/
theorem test_print :
    statusAndOut (exec .print (small .wrap [-2147483648])) =
      some (.running, [.emitNumber 0x80000000]) := by decide
/-- O8. -/
theorem test_print_underflow :
    statusAndOut (exec .print (small .wrap [])) = some (.faulted .stackUnderflow, []) := by decide
/-- O10, O14. -/
theorem test_print_char :
    statusAndOut (exec .printChar (small .wrap [328])) = some (.running, [.emitByte 72]) ∧
    statusAndOut (exec .printChar (small .wrap [-200])) = some (.running, [.emitByte 56]) := by decide
/-- O16. -/
theorem test_halt :
    stackAndIp (exec .halt (small .wrap [0])) = some ([0], 10) ∧
    statusAndOut (exec .halt (small .wrap [0])) = some (.halted, []) := by decide

/-- 44_system_output.md R93: `EmitNumber(-7)` renders as 2D 37 0A and `EmitByte(72)` as 48. -/
theorem test_sink :
    Sink.render [.emitNumber (BitVec.ofInt 32 (-7)), .emitByte 72, .emitNumber 0] =
      [0x2D, 0x37, 0x0A, 0x48, 0x30, 0x0A] := by decide
theorem test_sink_greatest_number :
    Sink.event (.emitNumber 0x80000000) =
      [0x2D, 0x32, 0x31, 0x34, 0x37, 0x34, 0x38, 0x33, 0x36, 0x34, 0x38, 0x0A] := by decide

/-! ### Witnesses: the hypotheses of each statement can be met, at the edges of their ranges -/

/-- A state in Running has raised no fault. -/
theorem safe_of_running {s : State} (h : s.status = .running) : s.Safe := by
  intro k hk
  rw [h] at hk
  cases hk

theorem witness_EveryStepKeepsTheInvariant :
    (machine 1 .fault [0x01, 0xFF] 0 []).Inv ∧
      ∃ t, step (machine 1 .fault [0x01, 0xFF] 0 []) = .next t :=
  ⟨⟨by decide, by decide, by decide⟩, _, rfl⟩

/-- A run of two steps that ends exactly at N, with the stack full. -/
theorem witness_EveryRunStaysInBoundsAndKeepsItsProgram :
    ∃ t : State, core.run 2 (State.boot 1 .wrap [0x0D, 0x01, 0x05] 7) = .next t ∧ t.Safe :=
  ⟨_, rfl, safe_of_running rfl⟩

theorem witness_RunsOnlyAppendToTheOutput :
    ∃ t : State, core.run 2 (machine 4 .wrap [0x0E, 0x0F] 0 [1, 2]) = .next t ∧ t.out.length = 2 :=
  ⟨_, rfl, rfl⟩

theorem witness_DecodeAnswersExactlyTheEncodedInstruction :
    decode [0x01, 0xFF, 0x02] = .ok (.push 0xFF, [0x02]) ∧
      [0x01, 0xFF, 0x02] = encode (.push 0xFF) ++ [0x02] := ⟨rfl, rfl⟩

theorem witness_ProgramsDecodeToWhatTheyEncode :
    (∀ i ∈ [Instr.push 0xFF, .halt], i.wellFormed = true) ∧
      decodeProgram [0x01, 0xFF, 0x10] = .ok [.push 0xFF, .halt] := ⟨by decide, rfl⟩

/-- Opcode 0x01, another valid opcode, and the illegal bytes 0x00 and 0x11. -/
theorem witness_OpcodeMapIsTheTable :
    ∀ b ∈ ([0x00, 0x11, 0xFF] : List Byte), b ∉ ([0x01, 0x02, 0x03, 0x04, 0x05, 0x06, 0x07, 0x08, 0x09,
      0x0A, 0x0B, 0x0C, 0x0D, 0x0E, 0x0F, 0x10] : List Byte) := by decide

theorem witness_LengthFollowsFromTheOpcodeByte :
    decode [0x01, 0x00] = .ok (.push 0x00, []) ∧ decode [0x10] = .ok (.halt, []) ∧
    ((0x00 : Byte).toNat = 0 ∨ 0x11 ≤ (0x00 : Byte).toNat) ∧
    ((0x11 : Byte).toNat = 0 ∨ 0x11 ≤ (0x11 : Byte).toNat) ∧
    (machine 4 .wrap [0x11] 0 []).status = .running ∧
    memRead (machine 4 .wrap [0x11] 0 []) 0 = .ok 0x11 ∧
    (memRead (machine 4 .wrap [0x01, 0x05] 0 []) 0 = .ok 0x01 ∧
      (∃ t, step (machine 4 .wrap [0x01, 0x05] 0 []) = .next t ∧ t.Safe) ∧
      fetch (machine 4 .wrap [0x01, 0x05] 0 []) = .ok (.push 0x05) ∧
      ¬(Instr.push 0x05).takesJump (machine 4 .wrap [0x01, 0x05] 0 [])) :=
  ⟨rfl, rfl, by decide, by decide, rfl, rfl, rfl, ⟨_, rfl, safe_of_running rfl⟩, rfl,
    by simp [Instr.takesJump]⟩

theorem witness_IllegalBytesFaultWithInvalidOpcode :
    (machine 4 .wrap [0x00] 0 []).status = .running ∧
    memRead (machine 4 .wrap [0x00] 0 []) 0 = .ok 0x00 ∧
    ((0x00 : Byte).toNat = 0 ∨ 0x11 ≤ (0x00 : Byte).toNat) ∧
    ((0xFF : Byte).toNat = 0 ∨ 0x11 ≤ (0xFF : Byte).toNat) := ⟨rfl, rfl, by decide, by decide⟩

/-- An instruction that ends at N, an illegal byte, a truncated PUSH, and `ip` equal to N. -/
theorem witness_StepRunsTheDecodedInstruction :
    (machine 4 .wrap [0x0D, 0x01, 0x05] 1 []).status = .running ∧
    decode ((machine 4 .wrap [0x0D, 0x01, 0x05] 1 []).program.bytesFrom 1) = .ok (.push 0x05, []) ∧
    (Instr.push 0x05).wellFormed = true ∧
    decode ((machine 4 .wrap [0x0D, 0x11] 1 []).program.bytesFrom 1) =
      .error (.invalidOpcode 0x11) ∧
    decode ((machine 4 .wrap [0x0D, 0x01] 1 []).program.bytesFrom 1) = .error .outOfBytes ∧
    decode ((machine 4 .wrap [0x0D] 1 []).program.bytesFrom 1) = .error .outOfBytes :=
  ⟨rfl, rfl, rfl, rfl, rfl, rfl⟩

theorem witness_AnInstructionRunsWhereverItStands :
    (machine 4 .wrap [0x0D, 0x01, 0x05, 0x10] 1 []).program =
      Memory.ofBytes ([0x0D] ++ encode (.push 0x05) ++ [0x10]) ∧
    (machine 4 .wrap [0x0D, 0x01, 0x05, 0x10] 1 []).status = .running ∧
    (machine 4 .wrap [0x0D, 0x01, 0x05, 0x10] 1 []).ip = [(0x0D : Byte)].length := ⟨rfl, rfl, rfl⟩

theorem witness_APlacedWordIsTheNextInstruction :
    State.reset.program.wf ∧ decodeTableWord 16 0xFF01 = some (.push 0xFF) := ⟨by decide, rfl⟩

/-- The last address of a program, N, and a PUSH at N - 1. -/
theorem witness_ReadingPastTheEndOfTheProgramFaults :
    1 < [(0x0D : Byte), 0x01].length ∧ (machine 4 .wrap [0x0D, 0x01] 2 []).program.size ≤ 2 ∧
    (machine 4 .wrap [0x0D, 0x01] 2 []).status = .running ∧
    memRead (machine 4 .wrap [0x0D, 0x01] 1 []) 1 = .ok 0x01 ∧
    (machine 4 .wrap [0x0D, 0x01] 1 []).program.size ≤ 1 + 1 := ⟨by decide, by decide, rfl, rfl, by decide⟩

theorem witness_AStepIsTakenExactlyInRunning :
    (∃ t, step (small .wrap []) = .next t) ∧ (small .wrap []).status = .running := ⟨⟨_, rfl⟩, rfl⟩

theorem witness_AnEndedRunStopsByName :
    ({ small .wrap [] with status := .halted } : State).status = .halted ∧
    ({ small .wrap [] with status := .faulted .stackOverflow } : State).status =
      .faulted .stackOverflow := ⟨rfl, rfl⟩

/-- A PUSH that ends at N, and an untaken JZ as the last byte (C24). -/
theorem witness_SequentialAdvanceIsByTheLength :
    (∃ t, step (machine 4 .wrap [0x01, 0x05] 0 []) = .next t ∧ t.Safe ∧ t.ip = t.program.size) ∧
    fetch (machine 4 .wrap [0x01, 0x05] 0 []) = .ok (.push 0x05) ∧
    ¬(Instr.push 0x05).takesJump (machine 4 .wrap [0x01, 0x05] 0 []) ∧
    (∃ t, step (machine 4 .wrap [0x0D, 0x0B] 1 [1, 0]) = .next t ∧ t.Safe ∧
      t.ip = t.program.size) ∧
    fetch (machine 4 .wrap [0x0D, 0x0B] 1 [1, 0]) = .ok .jz ∧
    ¬Instr.jz.takesJump (machine 4 .wrap [0x0D, 0x0B] 1 [1, 0]) := by
  refine ⟨⟨_, rfl, safe_of_running rfl, rfl⟩, rfl, ?_, ⟨_, rfl, safe_of_running rfl, rfl⟩, rfl, ?_⟩
  · simp [Instr.takesJump]
  · rintro (h | ⟨-, t, v, rest, h, hv⟩ | ⟨h, -⟩)
    · cases h
    · cases h
      exact absurd hv (by decide)
    · cases h

/-- Targets 0 and N - 1, by JMP, JZ and JNZ. -/
theorem witness_TakenJumpInstallsExactlyTheTarget :
    (∃ t, step (machine 4 .wrap [0x0D, 0x0A] 1 [0]) = .next t ∧ t.Safe) ∧
    fetch (machine 4 .wrap [0x0D, 0x0A] 1 [0]) = .ok .jmp ∧
    Instr.jmp.takesJump (machine 4 .wrap [0x0D, 0x0A] 1 [0]) ∧
    (∃ t, step (machine 4 .wrap [0x0D, 0x0B] 1 [0, 1]) = .next t ∧ t.Safe) ∧
    fetch (machine 4 .wrap [0x0D, 0x0B] 1 [0, 1]) = .ok .jz ∧
    Instr.jz.takesJump (machine 4 .wrap [0x0D, 0x0B] 1 [0, 1]) ∧
    (∃ t, step (machine 4 .wrap [0x0D, 0x0C] 1 [-1, 1]) = .next t ∧ t.Safe) ∧
    fetch (machine 4 .wrap [0x0D, 0x0C] 1 [-1, 1]) = .ok .jnz ∧
    Instr.jnz.takesJump (machine 4 .wrap [0x0D, 0x0C] 1 [-1, 1]) :=
  ⟨⟨_, rfl, safe_of_running rfl⟩, rfl, .inl rfl, ⟨_, rfl, safe_of_running rfl⟩, rfl,
    .inr (.inl ⟨rfl, _, _, _, rfl, by decide⟩), ⟨_, rfl, safe_of_running rfl⟩, rfl,
    .inr (.inr ⟨rfl, _, _, _, rfl, by decide⟩)⟩

theorem witness_PushWritesTheNextSlotOrOverflows :
    (machine 1 .wrap [] 0 [7]).stackTop = (machine 1 .wrap [] 0 [7]).capacity ∧
    (machine 2 .wrap [] 0 [7]).stackTop ≠ (machine 2 .wrap [] 0 [7]).capacity ∧
    (machine 0 .wrap [] 0 []).capacity = 0 ∧
    (machine 0 .wrap [] 0 []).stackTop ≤ (machine 0 .wrap [] 0 []).capacity := by decide

theorem witness_PopReturnsTheTopSlotOrUnderflows :
    (small .wrap []).stackTop = 0 ∧ (small .wrap [7]).stackTop ≠ 0 ∧
    ∃ t, push 7 (small .wrap []) = .ok t := ⟨rfl, by decide, _, rfl⟩

theorem witness_ResultsAreExactWrappedOrOverflow :
    InInt32 2147483647 ∧ InInt32 (-2147483648) ∧ ¬InInt32 2147483648 ∧ ¬InInt32 (-2147483649) := by
  decide

theorem witness_DivisionTruncatesAndRemainderFollowsTheDividend :
    (-1 : Int) ≠ 0 ∧ (BitVec.ofInt 32 (-1)).toInt ≠ 0 ∧ (1 : Word).toInt ≠ 0 := by decide

/-- One free slot, a full stack, and a PUSH at N - 2 and at N - 1. -/
theorem witness_PushPushesItsZeroExtendedImmediate :
    (small .wrap [1, 2, 3]).stackTop < (small .wrap [1, 2, 3]).capacity ∧
    (small .wrap [1, 2, 3, 4]).stackTop = (small .wrap [1, 2, 3, 4]).capacity ∧
    (machine 4 .wrap [0x01, 0xFF] 0 []).status = .running ∧
    memRead (machine 4 .wrap [0x01, 0xFF] 0 []) 0 = .ok 0x01 ∧
    memRead (machine 4 .wrap [0x01, 0xFF] 0 []) 1 = .ok 0xFF ∧
    memRead (machine 4 .wrap [0x01] 0 []) 0 = .ok 0x01 ∧
    0 + 1 = (machine 4 .wrap [0x01] 0 []).program.size :=
  ⟨by decide, by decide, rfl, rfl, rfl, rfl, rfl⟩

theorem witness_PopDiscardsTheTopValue :
    (small .wrap [5]).stack = [5] ∧ (small .wrap []).stackTop = 0 := by decide

theorem witness_DupDuplicatesTheTopValue :
    (small .wrap [1, 2, 3]).stack = [3, 2, 1] ∧
    (small .wrap [1, 2, 3]).stackTop < (small .wrap [1, 2, 3]).capacity ∧
    (small .wrap []).stackTop = 0 ∧
    (machine 1 .wrap [] 0 [1]).stack = [1] ∧
    (machine 1 .wrap [] 0 [1]).stackTop = (machine 1 .wrap [] 0 [1]).capacity := by decide

theorem witness_SwapExchangesTheTwoTopValues :
    (machine 2 .wrap [] 0 [1, 2]).stack = [2, 1] ∧
    (machine 2 .wrap [] 0 [1, 2]).stackTop ≤ (machine 2 .wrap [] 0 [1, 2]).capacity ∧
    (small .wrap [1]).stackTop < 2 ∧
    ∃ t u, exec .swap (machine 2 .wrap [] 0 [1, 2]) = .next t ∧ exec .swap t = .next u :=
  ⟨by decide, by decide, by decide, _, _, rfl, rfl⟩

/-- The greatest sum in range, the first one out of range under each policy, and one operand. -/
theorem witness_AddPushesTheSum :
    (small .wrap [2147483646, 1]).stack = [1, 2147483646] ∧
    (small .wrap [2147483646, 1]).stackTop ≤ (small .wrap [2147483646, 1]).capacity ∧
    InInt32 ((2147483646 : Word).toInt + (1 : Word).toInt) ∧
    (small .wrap [2147483647, 1]).overflowPolicy = .wrap ∧
    (small .fault [2147483647, 1]).stack = [1, 2147483647] ∧
    (small .fault [2147483647, 1]).overflowPolicy = .fault ∧
    ¬InInt32 ((2147483647 : Word).toInt + (1 : Word).toInt) ∧ (small .wrap [1]).stackTop < 2 := by
  decide

theorem witness_SubPushesTheDifference :
    (small .wrap [-2147483647, 1]).stack = [1, 0x80000001] ∧
    (small .wrap [-2147483647, 1]).stackTop ≤ (small .wrap [-2147483647, 1]).capacity ∧
    InInt32 ((0x80000001 : Word).toInt - (1 : Word).toInt) ∧
    (small .wrap [-2147483648, 1]).overflowPolicy = .wrap ∧
    (small .fault [-2147483648, 1]).stack = [1, 0x80000000] ∧
    (small .fault [-2147483648, 1]).overflowPolicy = .fault ∧
    ¬InInt32 ((0x80000000 : Word).toInt - (1 : Word).toInt) ∧ (small .wrap [1]).stackTop < 2 := by
  decide

theorem witness_MulPushesTheProduct :
    (small .wrap [46340, 46340]).stack = [46340, 46340] ∧
    (small .wrap [46340, 46340]).stackTop ≤ (small .wrap [46340, 46340]).capacity ∧
    InInt32 ((46340 : Word).toInt * (46340 : Word).toInt) ∧
    (small .wrap [46341, 46341]).overflowPolicy = .wrap ∧
    (small .fault [46341, 46341]).stack = [46341, 46341] ∧
    (small .fault [46341, 46341]).overflowPolicy = .fault ∧
    ¬InInt32 ((46341 : Word).toInt * (46341 : Word).toInt) ∧ (small .wrap [1]).stackTop < 2 := by
  decide

/-- -2^31 divided by 1 and by -1, a divisor of 0, and one operand. -/
theorem witness_DivPushesTheTruncatedQuotient :
    (small .wrap [-2147483648, 1]).stack = [1, 0x80000000] ∧
    (small .wrap [-2147483648, 1]).stackTop ≤ (small .wrap [-2147483648, 1]).capacity ∧
    (1 : Word).toInt ≠ 0 ∧ ¬((0x80000000 : Word).toInt = int32Min ∧ (1 : Word).toInt = -1) ∧
    (small .wrap [-2147483648, -1]).stack = [0xFFFFFFFF, 0x80000000] ∧
    (small .fault [-2147483648, -1]).stack = [0xFFFFFFFF, 0x80000000] ∧
    (0x80000000 : Word).toInt = int32Min ∧ (0xFFFFFFFF : Word).toInt = -1 ∧
    (small .wrap [-2147483648, -1]).overflowPolicy = .wrap ∧
    (small .fault [-2147483648, -1]).overflowPolicy = .fault ∧
    (small .wrap [5, 0]).stack = [0, 5] ∧ (0 : Word).toInt = 0 ∧ (small .wrap [0]).stackTop < 2 := by
  decide

theorem witness_ModPushesTheTruncatedRemainder :
    (small .fault [-2147483648, -1]).stack = [0xFFFFFFFF, 0x80000000] ∧
    (small .fault [-2147483648, -1]).stackTop ≤ (small .fault [-2147483648, -1]).capacity ∧
    (0xFFFFFFFF : Word).toInt ≠ 0 ∧ (small .wrap [5, 0]).stack = [0, 5] ∧ (0 : Word).toInt = 0 ∧
    (small .wrap [0]).stackTop < 2 ∧ (small .wrap [0]).status = .running := by decide

/-- Targets 0, N - 1, N and -1, and the empty stack. -/
theorem witness_JmpJumpsToAValidTarget :
    (small .wrap [0]).stack = [0] ∧ 0 ≤ (0 : Word).toInt ∧
    (0 : Word).toInt < (small .wrap [0]).program.size ∧
    (19 : Word).toInt < (small .wrap [19]).program.size ∧
    (small .wrap [20]).stack = [20] ∧ (small .wrap [20]).program.size ≤ (20 : Word).toInt ∧
    (0xFFFFFFFF : Word).toInt < 0 ∧ (small .wrap []).stackTop = 0 := by decide

theorem witness_JzJumpsExactlyOnZero :
    (small .wrap [0, 19]).stack = [19, 0] ∧ 0 ≤ (19 : Word).toInt ∧
    (19 : Word).toInt < (small .wrap [0, 19]).program.size ∧ (0 : Word).toInt = 0 ∧
    (small .wrap [-1, 19]).stack = [19, 0xFFFFFFFF] ∧ (0xFFFFFFFF : Word).toInt ≠ 0 ∧
    (small .wrap [1, 20]).stack = [20, 1] ∧
    ((20 : Word).toInt < 0 ∨ (small .wrap [1, 20]).program.size ≤ (20 : Word).toInt) ∧
    (small .wrap [5]).stackTop < 2 := by decide

theorem witness_JnzJumpsExactlyOnNonzero :
    (small .wrap [-1, 19]).stack = [19, 0xFFFFFFFF] ∧ 0 ≤ (19 : Word).toInt ∧
    (19 : Word).toInt < (small .wrap [-1, 19]).program.size ∧ (0xFFFFFFFF : Word).toInt ≠ 0 ∧
    (small .wrap [0, 19]).stack = [19, 0] ∧ (0 : Word).toInt = 0 ∧
    (small .wrap [0, -1]).stack = [0xFFFFFFFF, 0] ∧
    ((0xFFFFFFFF : Word).toInt < 0 ∨
      (small .wrap [0, -1]).program.size ≤ (0xFFFFFFFF : Word).toInt) ∧
    (small .wrap [7]).stackTop < 2 := by decide

theorem witness_PrintEmitsTheNumber :
    (small .wrap [-7]).stack = [0xFFFFFFF9] ∧ (small .wrap []).stackTop = 0 := by decide

theorem witness_PrintCharEmitsTheLowByte :
    (small .wrap [-1]).stack = [0xFFFFFFFF] ∧ (small .wrap []).stackTop = 0 := by decide

theorem witness_EveryInstructionLeavesTheRestAlone :
    ∃ t, exec .add (small .wrap [9, 2, 3]) = .next t ∧ t.Safe ∧ Instr.add.emits = false ∧
      Instr.add ≠ .halt := ⟨_, rfl, safe_of_running rfl, rfl, by decide⟩

theorem witness_NoStepChangesTheProgramOrTheParameters :
    ∃ t, step (small .wrap [1]) = .next t := ⟨_, rfl⟩

theorem witness_AStepEmitsAtMostOneEventAndAFaultingStepNone :
    (∃ t, step (machine 4 .wrap [0x0E] 0 [3]) = .next t ∧ t.out = [.emitNumber 3]) ∧
    ∃ t, step (machine 4 .wrap [0x0E] 0 []) = .next t ∧ t.status = .faulted .stackUnderflow :=
  ⟨⟨_, rfl, rfl⟩, _, rfl, rfl⟩

theorem witness_OnlyHaltHaltsAndNothingLeavesAnEnd :
    ∃ t, step (machine 4 .wrap [0x10] 0 [3]) = .next t ∧ t.status = .halted := ⟨_, rfl, rfl⟩

theorem witness_AFaultLeavesOutputAndProgramExact :
    ∃ t, step (machine 4 .wrap [0x0A] 0 [1]) = .next t ∧ t.status = .faulted (.invalidJumpTarget 1) :=
  ⟨_, rfl, rfl⟩

theorem witness_EachFaultIsRaisedOnlyWhereTheTableSays :
    (small .fault [2147483647, 1]).status = .running ∧
    (small .fault [2147483647, 1]).stackTop ≤ (small .fault [2147483647, 1]).capacity ∧
    FaultsWith .add (small .fault [2147483647, 1]) .arithmeticOverflow ∧
    fetch (machine 4 .wrap [0x11] 0 []) = .error (.invalidOpcode 0x11) ∧
    fetch (machine 4 .wrap [0x01] 0 []) = .error .programBoundsExceeded :=
  ⟨rfl, by decide, ⟨_, rfl, raise_faultedFrom _ _⟩, rfl, rfl⟩

theorem witness_FaultCodesAreOneToSeven :
    FaultKind.code (.invalidOpcode 0x00) = FaultKind.code (.invalidOpcode 0xFF) := rfl

theorem witness_OnlyNopHasNoOtherEffect : Instr.halt ≠ .nop := by decide

/-- Two programs that differ only before `ip`, where one has a PUSH whose immediate is at `ip`. -/
theorem witness_AStepSeesOnlyTheBytesAtItsAddress :
    (Memory.ofBytes [0x01, 0x0A]).size = (machine 4 .wrap [0x0D, 0x0A] 1 [0]).program.size ∧
    (Memory.ofBytes [0x01, 0x0A]).read 1 = (machine 4 .wrap [0x0D, 0x0A] 1 [0]).program.read 1 ∧
    (Memory.ofBytes [0x01, 0x0A]).read 2 = (machine 4 .wrap [0x0D, 0x0A] 1 [0]).program.read 2 ∧
    ∃ t, step (machine 4 .wrap [0x0D, 0x0A] 1 [0]) = .next t := ⟨rfl, rfl, rfl, _, rfl⟩

theorem witness_RunsWithoutOverflowDoNotDependOnThePolicy :
    (machine 4 .fault [0x05, 0x0E] 0 [2147483646, 1]).overflowPolicy = .fault ∧
    ∃ t : State, core.run 2 (machine 4 .fault [0x05, 0x0E] 0 [2147483646, 1]) = .next t ∧
      t.status ≠ .faulted .arithmeticOverflow := ⟨rfl, _, rfl, by decide⟩

theorem witness_WrapNeverRaisesArithmeticOverflow :
    (machine 4 .wrap [0x05] 0 [2147483647, 1]).overflowPolicy = .wrap ∧
    (machine 4 .wrap [0x05] 0 [2147483647, 1]).status ≠ .faulted .arithmeticOverflow ∧
    ∃ t : State, core.run 1 (machine 4 .wrap [0x05] 0 [2147483647, 1]) = .next t :=
  ⟨rfl, by decide, _, rfl⟩

theorem witness_EqualProgramsAreEqualMemories :
    (Memory.ofBytes [0x00, 0x10]).wf ∧ Memory.ofBytes [0x00, 0x10] = ⟨2, [(1, 0x10)]⟩ := by decide

theorem witness_PlacingAByteChangesThatByteAlone : State.reset.program.wf := by decide

end Sys2Proof.Tests
end

section
/-! SUPPORT. The encoding (30_encoding.md): which bytes are opcodes, what a length depends on, and what a
step does with a byte that is no opcode. -/

/-! ### The decoder -/

namespace Sys2Proof

/-- The required fallback of R52 is taken by exactly the bytes outside 0x01 to 0x10. -/
theorem decodeOpcode_error_iff (b : Byte) :
    decodeOpcode b = .error (.invalidOpcode b) ↔ b.toNat = 0 ∨ 0x11 ≤ b.toNat := by
  unfold decodeOpcode
  split
  case h_17 =>
    refine iff_of_true rfl ?_
    simp only [imp_false] at *
    omega
  all_goals exact iff_of_false nofun (by omega)

/-- Of the 256 byte values, 0x00 and the 239 from 0x11 on are no opcodes. -/
theorem length_illegalBytes :
    ((List.range 256).filter fun n => n = 0 ∨ 0x11 ≤ n).length = 240 := by
  have low : ((List.range 0x11).filter fun n => n = 0 ∨ 0x11 ≤ n) = [0] := rfl
  have high : (((List.range 239).map (0x11 + ·)).filter fun n => n = 0 ∨ 0x11 ≤ n) =
      (List.range 239).map (0x11 + ·) := by
    simp [List.filter_eq_self]
  rw [show 256 = 0x11 + 239 from rfl, List.range_add, List.filter_append, low, high,
    List.length_append, List.length_map, List.length_range]
  rfl

/-- The opcode map of R50 has no row beside its sixteen opcode bytes. -/
theorem decodeOpcode_error_of_notMem {b : Byte}
    (h : b ∉ [0x01, 0x02, 0x03, 0x04, 0x05, 0x06, 0x07, 0x08, 0x09, 0x0A, 0x0B, 0x0C, 0x0D, 0x0E, 0x0F,
      0x10]) : decodeOpcode b = .error (.invalidOpcode b) := by
  rw [decodeOpcode_error_iff]
  simp only [List.mem_cons, List.not_mem_nil, or_false, not_or] at h
  bv_omega

/-- The opcode byte of format I is not one of format Z. -/
theorem ne_pushOpcode_of_complete {b : Byte} {i : Instr} (h : decodeOpcode b = .ok (.complete i)) :
    b ≠ 0x01 := by
  rintro rfl
  cases h

/-- R51: the first byte alone gives the length of what `decode` answers, and that many bytes are
consumed. -/
theorem decode_ok_length {b : Byte} {rest rest' : List Byte} {i : Instr}
    (h : decode (b :: rest) = .ok (i, rest')) :
    i.length = (if b = 0x01 then 2 else 1) ∧ (b :: rest).length = i.length + rest'.length := by
  rcases decode_cases h with ⟨j, hd, hr⟩ | ⟨-, -, hr⟩ | ⟨rfl, imm8, tail, rfl, hr⟩ | ⟨-, hr⟩
  · cases hr
    have hlen : i.length = 1 := (decodeOpcode_complete hd).2
    rw [if_neg (ne_pushOpcode_of_complete hd), hlen, List.length_cons, Nat.add_comm]
    exact ⟨rfl, rfl⟩
  · cases hr
  · cases hr
    exact ⟨rfl, by simp only [Instr.length, List.length_cons]; omega⟩
  · cases hr

end Sys2Proof

/-! ### The step -/

namespace Sys2Proof.Machine

/-- The program's bytes from an address on begin with the byte that MemRead answers there. -/
theorem bytesFrom_of_memRead {s : State} {a : Nat} {b : Byte} (h : memRead s a = .ok b) :
    s.program.bytesFrom a = b :: s.program.bytesFrom (a + 1) := by
  have hlt := lt_of_memRead_ok h
  rw [memRead_of_lt hlt] at h
  cases h
  exact Memory.bytesFrom_eq_cons hlt

/-- A fetched instruction is what the decoder answers on the program's bytes from `ip` on. -/
theorem decode_of_fetch {s : State} {i : Instr} (h : fetch s = .ok i) :
    ∃ rest, decode (s.program.bytesFrom s.ip) = .ok (i, rest) := by
  rw [fetch_eq_decode] at h
  match hd : decode (s.program.bytesFrom s.ip) with
  | .error e => rw [hd] at h; cases h
  | .ok (j, rest) => rw [hd] at h; cases h; exact ⟨rest, rfl⟩

/-- R51 for the instruction at `ip`: its length follows from the byte at `ip`. -/
theorem fetch_ok_length {s : State} {b : Byte} {i : Instr} (hb : memRead s s.ip = .ok b)
    (hf : fetch s = .ok i) : i.length = if b = 0x01 then 2 else 1 := by
  obtain ⟨rest, hd⟩ := decode_of_fetch hf
  rw [bytesFrom_of_memRead hb] at hd
  exact (decode_ok_length hd).1

/-- A step that ends in a safe state completed the instruction it fetched. -/
theorem completes_of_step_safe {s t : State} {i : Instr} (hstep : step s = .next t) (ht : t.Safe)
    (hf : fetch s = .ok i) : Completes i s t := by
  obtain ⟨hrun, -⟩ := step_next_cases hstep
  rw [step_of_fetch hrun hf] at hstep
  rcases exec_cases hstep with ⟨k, -, rfl⟩ | hc
  · exact absurd (raise_status k s) (ht k)
  · exact hc

/-- R64: a completed instruction that takes no jump and does not halt advances `ip` by its length. -/
theorem Completes.ip_sequential {i : Instr} {s t : State} (h : Completes i s t)
    (hj : ¬i.takesJump s) (hh : i ≠ .halt) : t.ip = s.ip + i.length := by
  rcases h.ip with ⟨hj', -⟩ | ⟨hh', -⟩ | ⟨-, -, hip⟩
  · exact absurd hj' hj
  · exact absurd hh' hh
  · exact hip

/-- R52: a step in Running that fetches a byte that is no opcode raises InvalidOpcode of that byte. -/
theorem stepFaultsWith_invalidOpcode {s : State} {b : Byte} (hrun : s.status = .running)
    (hb : memRead s s.ip = .ok b) (hill : b.toNat = 0 ∨ 0x11 ≤ b.toNat) :
    StepFaultsWith s (.invalidOpcode b) := by
  have hf : fetch s = .error (.invalidOpcode b) :=
    fetch_illegal hb ((decodeOpcode_error_iff b).mpr hill)
  exact ⟨_, step_of_fetch_error hrun hf, raise_faultedFrom _ s⟩

end Sys2Proof.Machine

/-! ### The obligations of 30_encoding.md -/

namespace Sys2Proof.Proofs

open Sys2Proof.Machine

/-- Settles O9: the decoder's cases give the length, and a step that completes advances by it. -/
theorem lengthFollowsFromTheOpcodeByte : Obligations.LengthFollowsFromTheOpcodeByte := by
  unfold Obligations.LengthFollowsFromTheOpcodeByte
  refine ⟨fun b rest i rest' h => decode_ok_length h, fun b hill => ⟨fun rest => ?_, ?_⟩, ?_⟩
  · exact decode_error rest ((decodeOpcode_error_iff b).mpr hill)
  · exact fun s hrun hb => stepFaultsWith_invalidOpcode hrun hb hill
  · intro s t b i hb hstep ht hf hj hh
    rw [← fetch_ok_length hb hf]
    exact (completes_of_step_safe hstep ht hf).ip_sequential hj hh

/-- Settles O10: the fallback row of the opcode map, counted, and the fault that its fetch raises. -/
theorem illegalBytesFaultWithInvalidOpcode : Obligations.IllegalBytesFaultWithInvalidOpcode := by
  unfold Obligations.IllegalBytesFaultWithInvalidOpcode
  exact ⟨decodeOpcode_error_iff, length_illegalBytes, fun s b => stepFaultsWith_invalidOpcode⟩

/-- Settles O6: each of the sixteen rows is evaluated, and every other byte takes the fallback. -/
theorem opcodeMapIsTheTable : Obligations.OpcodeMapIsTheTable := by
  unfold Obligations.OpcodeMapIsTheTable
  exact ⟨fun _ => rfl, rfl, rfl, rfl, rfl, rfl, rfl, rfl, rfl, rfl, rfl, rfl, rfl, rfl, rfl, rfl,
    fun _ => decodeOpcode_error_of_notMem⟩

end Sys2Proof.Proofs
end

section
/-! SUPPORT. The execution cycle (40_execution_cycle.md): when a step is taken, how `ip` moves on, and
what a push does to the slots. -/

/-! ### Lengths -/

namespace Sys2Proof

/-- R51: PUSH is the only instruction of two bytes. -/
theorem Instr.length_of_ne_push {i : Instr} (h : ∀ imm8, i ≠ .push imm8) : i.length = 1 := by
  cases i with
  | push imm8 => exact absurd rfl (h imm8)
  | _ => rfl

end Sys2Proof

namespace Sys2Proof.Machine

/-! ### The step -/

/-- R60: in Running every step has a next state, whatever its fetch and its instruction do. -/
theorem step_total {s : State} (hrun : s.status = .running) : ∃ t, step s = .next t := by
  match hf : fetch s with
  | .error k => exact ⟨_, step_of_fetch_error hrun hf⟩
  | .ok i =>
    rw [step_of_fetch hrun hf]
    exact exec_total i s

/-- A fault of the fetch is the fault of the step. -/
theorem stepFaultsWith_of_fetch_error {s : State} {k : FaultKind} (hrun : s.status = .running)
    (hf : fetch s = .error k) : StepFaultsWith s k :=
  ⟨_, step_of_fetch_error hrun hf, raise_faultedFrom k s⟩

/-- Only HALT changes the status when it completes. -/
theorem Completes.status_eq {i : Instr} {s t : State} (h : Completes i s t) (hh : i ≠ .halt) :
    t.status = s.status :=
  h.status.resolve_right fun ⟨hh', _⟩ => hh hh'

/-! ### The slots under a push -/

/-- The slots are read from the bottom, so a value put on top takes the slot `stack_top`. -/
theorem State.slot_stackTop_cons (s : State) (v : Word) :
    ({ s with stack := v :: s.stack } : State).slot s.stackTop = some v := by
  simp [State.slot, State.stackTop]

/-- A value put on top leaves every slot below `stack_top` alone. -/
theorem State.slot_cons_of_lt {s : State} {i : Nat} (v : Word) (h : i < s.stackTop) :
    ({ s with stack := v :: s.stack } : State).slot i = s.slot i := by
  rw [State.stackTop, ← List.length_reverse] at h
  rw [State.slot, List.reverse_cons, List.getElem?_append_left h, State.slot]

end Sys2Proof.Machine

/-! ### The obligations of 40_execution_cycle.md -/

namespace Sys2Proof.Proofs

open Sys2Proof.Machine

/-- Settles O15: a next state needs Running, and in Running fetch and instruction are total. -/
theorem aStepIsTakenExactlyInRunning : Obligations.AStepIsTakenExactlyInRunning := by
  unfold Obligations.AStepIsTakenExactlyInRunning
  exact fun s => ⟨fun ⟨_, h⟩ => (step_next_cases h).1, step_total⟩

/-- Settles O17: the fetched instruction completed, so `ip` moved on by its length and the status is
still Running; at N the next fetch faults. -/
theorem sequentialAdvanceIsByTheLength : Obligations.SequentialAdvanceIsByTheLength := by
  unfold Obligations.SequentialAdvanceIsByTheLength
  intro s t i hstep ht hf hj hh
  have hc : Completes i s t := completes_of_step_safe hstep ht hf
  have hip : t.ip = s.ip + i.length := hc.ip_sequential hj hh
  refine ⟨?_, ?_, ?_⟩
  · rintro imm8 rfl
    exact hip
  · intro hne
    rw [hip, Instr.length_of_ne_push hne]
  · intro hend
    obtain ⟨hrun, -⟩ := step_next_cases hstep
    have hrun' : t.status = .running := (hc.status_eq hh).trans hrun
    exact stepFaultsWith_of_fetch_error hrun' (fetch_past_end hend.ge)

/-- Settles O19: a push is an error exactly on a full stack, and otherwise puts the value on top. -/
theorem pushWritesTheNextSlotOrOverflows : Obligations.PushWritesTheNextSlotOrOverflows := by
  unfold Obligations.PushWritesTheNextSlotOrOverflows
  refine ⟨fun v s hfull => push_of_full v hfull, fun v s hroom => ?_, fun v s hcap hle => ?_⟩
  · exact ⟨_, push_of_room v hroom, s.slot_stackTop_cons v, rfl,
      fun _ => State.slot_cons_of_lt v, rfl⟩
  · exact push_of_full v (by omega)

end Sys2Proof.Proofs
end

section
/-! SUPPORT. Stack manipulation (41_stack.md): what POP and SWAP answer on each kind of stack. -/

namespace Sys2Proof.Machine

/-! ### The stack and its faults -/

theorem State.stackTop_eq_zero_iff {s : State} : s.stackTop = 0 ↔ s.stack = [] :=
  List.length_eq_zero_iff

/-- An instruction that answers with a raise faults with what it raised. -/
theorem faultsWith_of_exec_eq_raise {i : Instr} {s : State} {k : FaultKind}
    (h : exec i s = .next (raise k s)) : FaultsWith i s k :=
  ⟨_, h, raise_faultedFrom k s⟩

/-! ### POP -/

theorem exec_pop_nil {s : State} (h : s.stack = []) :
    exec .pop s = .next (raise .stackUnderflow s) := by
  rw [exec_pop, execPop, pop_nil h]
  rfl

theorem exec_pop_cons {s : State} {a : Word} {rest : List Word} (h : s.stack = a :: rest) :
    exec .pop s = .next { s with stack := rest, ip := s.ip + 1 } := by
  rw [exec_pop, execPop, pop_cons h]
  rfl

/-! ### SWAP -/

theorem exec_swap_short {s : State} (h : s.stackTop < 2) :
    exec .swap s = .next (raise .stackUnderflow s) := by
  rw [exec_swap, execSwap, pop2_of_short h]
  rfl

/-- The two pops make room for the two pushes, so a stack within the capacity cannot overflow. -/
theorem exec_swap_cons_cons {s : State} {a b : Word} {rest : List Word}
    (h : s.stack = a :: b :: rest) (hcap : s.stackTop ≤ s.capacity) :
    exec .swap s = .next { s with stack := b :: a :: rest, ip := s.ip + 1 } := by
  obtain ⟨t, ht⟩ := exec_total .swap s
  rw [ht]
  rcases execSwap_cases ht with ⟨hshort, -⟩ | ⟨a', b', rest', h', ⟨hover, -⟩ | rfl⟩
  · simp [State.stackTop, h] at hshort
  · omega
  · cases h.symm.trans h'
    rfl

/-- SWAP undoes itself: the state after the first one has the two values exchanged and is within the
capacity again. -/
theorem stack_eq_of_exec_swap_twice {s t u : State} {a b : Word} {rest : List Word}
    (h : s.stack = a :: b :: rest) (hcap : s.stackTop ≤ s.capacity)
    (hst : exec .swap s = .next t) (htu : exec .swap t = .next u) : u.stack = s.stack := by
  rw [exec_swap_cons_cons h hcap] at hst
  cases hst
  have hcap' : (b :: a :: rest).length ≤ s.capacity := by
    simpa [State.stackTop, h] using hcap
  rw [exec_swap_cons_cons (s := { s with stack := b :: a :: rest, ip := s.ip + 1 }) rfl hcap'] at htu
  cases htu
  exact h.symm

end Sys2Proof.Machine

/-! ### The obligations of 41_stack.md -/

namespace Sys2Proof.Proofs

open Sys2Proof.Machine

/-- Settles O24: POP's answer on a stack with a top value, and its fault on the empty stack. -/
theorem popDiscardsTheTopValue : Obligations.PopDiscardsTheTopValue := by
  unfold Obligations.PopDiscardsTheTopValue
  refine ⟨rfl, fun s a rest => exec_pop_cons, fun s hempty => ?_⟩
  exact faultsWith_of_exec_eq_raise (exec_pop_nil (State.stackTop_eq_zero_iff.mp hempty))

/-- Settles O26: the pops make room for the pushes, and a second SWAP exchanges the same two values. -/
theorem swapExchangesTheTwoTopValues : Obligations.SwapExchangesTheTwoTopValues := by
  unfold Obligations.SwapExchangesTheTwoTopValues
  refine ⟨rfl, fun s a b rest => exec_swap_cons_cons, fun s hshort => ?_, fun s t u a b rest => ?_⟩
  · exact faultsWith_of_exec_eq_raise (exec_swap_short hshort)
  · exact stack_eq_of_exec_swap_twice

end Sys2Proof.Proofs
end

section
/-! SUPPORT. No-op and output (44_system_output.md): what NOP and PRINT answer. -/

namespace Sys2Proof.Machine

/-- PRINT is the output shape with the whole int32 as its event. -/
theorem exec_print_cons {s : State} {v : Word} {rest : List Word} (h : s.stack = v :: rest) :
    exec .print s =
      .next { s with stack := rest, ip := s.ip + 1, out := s.out ++ [.emitNumber v] } := by
  rw [exec_print, output_cons _ _ h]
  rfl

theorem exec_print_nil {s : State} (h : s.stack = []) :
    exec .print s = .next (raise .stackUnderflow s) := by
  rw [exec_print, output_nil _ _ h]

end Sys2Proof.Machine

/-! ### The obligations of 44_system_output.md -/

namespace Sys2Proof.Proofs

open Sys2Proof.Machine

/-- Settles O35: NOP is an advance by its length, which is 1. -/
theorem nopOnlyAdvances : Obligations.NopOnlyAdvances := by
  unfold Obligations.NopOnlyAdvances
  exact ⟨rfl, exec_nop⟩

/-- Settles O36: PRINT's answer on a stack with a top value, and its fault on the empty stack, which
leaves the output as it was. -/
theorem printEmitsTheNumber : Obligations.PrintEmitsTheNumber := by
  unfold Obligations.PrintEmitsTheNumber
  refine ⟨rfl, fun s v rest => exec_print_cons, fun s hempty => ?_⟩
  exact faultsWith_of_exec_eq_raise (exec_print_nil (State.stackTop_eq_zero_iff.mp hempty))

end Sys2Proof.Proofs
end

section
/-! SUPPORT. Reset (70_reset_and_hazards.md): what a constructed run answers to the questions about its
stack, its fault record and its program. -/

namespace Sys2Proof.Machine

/-- The empty stack has a value in no slot. -/
theorem State.slot_of_stack_eq_nil {s : State} (h : s.stack = []) (i : Nat) : s.slot i = none := by
  rw [State.slot, h]
  rfl

/-- A constructed run has no fault record: its status is Running. -/
theorem State.boot_safe (cap : Nat) (pol : OverflowPolicy) (prog : List Byte) (d : Nat) :
    (State.boot cap pol prog d).Safe := by
  intro k
  rw [State.boot_status]
  nofun

@[simp] theorem Memory.ofBytes_size (bs : List Byte) : (Memory.ofBytes bs).size = bs.length := rfl

end Sys2Proof.Machine

/-! ### The obligations of 70_reset_and_hazards.md -/

namespace Sys2Proof.Proofs

open Sys2Proof.Machine

/-- Settles O1: the reset values are those of the construction, its stack is empty in every slot, and
the memory built from the program's bytes reads as them. -/
theorem bootLeavesEveryPieceOfStateAtItsResetValue :
    Obligations.BootLeavesEveryPieceOfStateAtItsResetValue := by
  unfold Obligations.BootLeavesEveryPieceOfStateAtItsResetValue
  intro cap pol prog d
  refine ⟨State.boot_status .., State.boot_ip .., State.boot_stackTop .., ?slots, State.boot_out ..,
    State.boot_safe cap pol prog d, State.boot_capacity .., State.boot_overflowPolicy ..,
    ?length, ?bytes⟩
  case slots => exact State.slot_of_stack_eq_nil (State.boot_stack ..)
  case length => rw [State.boot_program, Memory.ofBytes_size]
  case bytes =>
    rw [State.boot_program]
    exact Memory.read_ofBytes prog

end Sys2Proof.Proofs
end

section
/-! SUPPORT. What one step can do, said once, and what every step and every run keeps
(40_execution_cycle.md, 60_exceptions.md). -/

namespace Sys2Proof.Machine

/-! ### A step raises a fault or completes its instruction -/

theorem State.safe_of_running {s : State} (h : s.status = .running) : s.Safe := by
  intro k
  rw [h]
  nofun

theorem not_safe_raise (k : FaultKind) (s : State) : ¬(raise k s).Safe :=
  fun h => h k (raise_status k s)

/-- The faults of a step: those of its fetch and those of the instruction it fetched. -/
def StepRaises (s : State) (k : FaultKind) : Prop :=
  fetch s = .error k ∨ ∃ i, fetch s = .ok i ∧ Raises i s k

/-- R61: a step with a next state ran in Running and raised a fault, or completed the instruction at
`ip`. -/
theorem step_cases {s t : State} (h : step s = .next t) :
    s.status = .running ∧
      ((∃ k, StepRaises s k ∧ t = raise k s) ∨ ∃ i, fetch s = .ok i ∧ Completes i s t) := by
  obtain ⟨hrun, ⟨k, hf, rfl⟩ | ⟨i, hf, hexec⟩⟩ := step_next_cases h
  · exact ⟨hrun, .inl ⟨k, .inl hf, rfl⟩⟩
  · refine ⟨hrun, ?_⟩
    rcases exec_cases hexec with ⟨k, hk, rfl⟩ | hc
    · exact .inl ⟨k, .inr ⟨i, hf, hk⟩, rfl⟩
    · exact .inr ⟨i, hf, hc⟩

/-- Only a raise leads out of the safe states, so an instruction that completes in one stays there. -/
theorem Completes.safe {i : Instr} {s t : State} (h : Completes i s t) (hs : s.Safe) : t.Safe := by
  intro k
  rcases h.status with hst | ⟨-, hst⟩
  · rw [hst]
    exact hs k
  · rw [hst]
    nofun

/-- A step that ends in Faulted(k) raised k in the state it began in. -/
theorem eq_raise_of_step_faulted {s t : State} {k : FaultKind} (h : step s = .next t)
    (ht : t.status = .faulted k) : StepRaises s k ∧ t = raise k s := by
  obtain ⟨hrun, ⟨k', hk, rfl⟩ | ⟨i, -, hc⟩⟩ := step_cases h
  · cases ht
    exact ⟨hk, rfl⟩
  · exact absurd ht (hc.safe (State.safe_of_running hrun) k)

/-! ### What every step keeps -/

/-- R28, R33: no step writes the parameters or the program. -/
theorem step_keeps_parameters {s t : State} (h : step s = .next t) :
    t.capacity = s.capacity ∧ t.overflowPolicy = s.overflowPolicy ∧ t.program = s.program := by
  obtain ⟨-, ⟨k, -, rfl⟩ | ⟨i, -, hc⟩⟩ := step_cases h
  · exact ⟨rfl, rfl, rfl⟩
  · exact ⟨hc.capacity, hc.overflowPolicy, hc.program⟩

/-- MemRead depends on the program alone. -/
theorem memRead_congr {s t : State} (h : t.program = s.program) (a : Nat) :
    memRead t a = memRead s a := by
  rw [memRead, memRead, h]

/-- A jump target is an address of the program, and a fetched instruction lies whole in it. -/
theorem Completes.ip_le {i : Instr} {s t : State} (h : Completes i s t) (hf : fetch s = .ok i) :
    t.ip ≤ s.program.size := by
  obtain ⟨hfit, hlt⟩ := fetch_ok_bounds hf
  rcases h.ip with ⟨-, v, -, h0, h1, hip⟩ | ⟨-, hip⟩ | ⟨-, -, hip⟩
  · omega
  · omega
  · omega

/-- R74: every step keeps the invariant of a run. -/
theorem step_inv {s t : State} (hs : s.Inv) (h : step s = .next t) : t.Inv := by
  obtain ⟨-, ⟨k, -, rfl⟩ | ⟨i, hf, hc⟩⟩ := step_cases h
  · exact ⟨raise_ip_le k s, raise_stackTop_le k s, hs.program_wf⟩
  · refine ⟨?_, ?_, ?_⟩
    · rw [hc.program]
      exact hc.ip_le hf
    · rw [hc.capacity]
      exact hc.depth hs.stack_le
    · rw [hc.program]
      exact hs.program_wf

/-- R45, R73: a step appends at most one event to the output stream, and none when it faults. -/
theorem step_out {s t : State} (h : step s = .next t) :
    t.out = s.out ∨ (t.Safe ∧ ∃ e, t.out = s.out ++ [e]) := by
  obtain ⟨hrun, ⟨k, -, rfl⟩ | ⟨i, -, hc⟩⟩ := step_cases h
  · exact .inl rfl
  · exact hc.out.imp_right fun ⟨_, he⟩ => ⟨hc.safe (State.safe_of_running hrun), he⟩

/-- Only a raise draws free values. -/
theorem step_draws {s t : State} (h : step s = .next t) (ht : t.Safe) : t.draws = s.draws := by
  obtain ⟨-, ⟨k, -, rfl⟩ | ⟨i, -, hc⟩⟩ := step_cases h
  · exact absurd ht (not_safe_raise k s)
  · exact hc.draws

/-- A step ends in Halted exactly when the instruction at `ip` is HALT. -/
theorem step_halted_iff {s t : State} (h : step s = .next t) :
    t.status = .halted ↔ fetch s = .ok .halt := by
  obtain ⟨hrun, -⟩ := step_next_cases h
  constructor
  · intro ht
    obtain ⟨-, ⟨k, -, rfl⟩ | ⟨i, hf, hc⟩⟩ := step_cases h
    · cases ht
    · rcases hc.status with hst | ⟨rfl, -⟩
      · rw [hst, hrun] at ht
        cases ht
      · exact hf
  · intro hf
    rw [step_of_fetch hrun hf] at h
    cases h
    rfl

/-! ### Which faults are raised where -/

/-- R52, R31: the two faults of the fetch. -/
theorem fetch_error_cases {s : State} {k : FaultKind} (h : fetch s = .error k) :
    k = .programBoundsExceeded ∨
      ∃ b, k = .invalidOpcode b ∧ memRead s s.ip = .ok b ∧ (b.toNat = 0 ∨ 0x11 ≤ b.toNat) := by
  by_cases h0 : s.ip < s.program.size
  · have hr := memRead_of_lt h0
    match hd : decodeOpcode (Memory.cellAt s.program.cells s.ip) with
    | .error e =>
      obtain rfl := decodeOpcode_error hd
      rw [fetch_illegal hr hd] at h
      cases h
      exact .inr ⟨_, rfl, hr, (decodeOpcode_error_iff _).mp hd⟩
    | .ok (.complete i) =>
      rw [fetch_complete hr hd] at h
      cases h
    | .ok .pushOpcode =>
      rw [decodeOpcode_pushOpcode hd] at hr
      by_cases h1 : s.ip + 1 < s.program.size
      · rw [fetch_push hr (memRead_of_lt h1)] at h
        cases h
      · rw [fetch_push_truncated hr (Nat.le_of_not_lt h1)] at h
        cases h
        exact .inl rfl
  · rw [fetch_past_end (Nat.le_of_not_lt h0)] at h
    cases h
    exact .inl rfl

/-- R96: an arithmetic overflow is raised only under the policy Fault. -/
theorem StepRaises.policy_of_overflow {s : State} (h : StepRaises s .arithmeticOverflow) :
    s.overflowPolicy = .fault := by
  rcases h with hf | ⟨i, -, hr⟩
  · rcases fetch_error_cases hf with hk | ⟨b, hk, -⟩
    · cases hk
    · cases hk
  · cases hr with
    | listed _ policy => exact policy rfl

/-- An instruction that faults in a safe state raised a fault of its own row. -/
theorem raises_of_faultsWith {i : Instr} {s : State} {k : FaultKind} (hs : s.Safe)
    (h : FaultsWith i s k) : Raises i s k := by
  obtain ⟨t, hexec, hfault⟩ := h
  rcases exec_cases hexec with ⟨k', hk, rfl⟩ | hc
  · cases hfault.status
    exact hk
  · exact absurd hfault.status (hc.safe hs k)

/-! ### Runs from the construction -/

/-- What holds after `k` steps of a run from its construction: the invariant of R74, the parameters and
the program as the host supplied them, at most one event a step, and no free value drawn before a
fault. -/
structure RunFromBoot (cap : Nat) (pol : OverflowPolicy) (prog : List Byte) (d k : Nat) (t : State) :
    Prop where
  inv : t.Inv
  capacity : t.capacity = cap
  overflowPolicy : t.overflowPolicy = pol
  program : t.program = Memory.ofBytes prog
  out : t.out.length ≤ k
  draws : t.Safe → t.draws = d

/-- R74, R111: every construction of a run meets the invariant. -/
theorem State.boot_inv (cap : Nat) (pol : OverflowPolicy) (prog : List Byte) (d : Nat) :
    (State.boot cap pol prog d).Inv :=
  ⟨Nat.zero_le _, Nat.zero_le _, Memory.ofBytes_wf prog⟩

theorem runFromBoot_boot (cap : Nat) (pol : OverflowPolicy) (prog : List Byte) (d : Nat) :
    RunFromBoot cap pol prog d 0 (State.boot cap pol prog d) :=
  ⟨State.boot_inv cap pol prog d, rfl, rfl, rfl, le_refl 0, fun _ => rfl⟩

theorem RunFromBoot.step {cap : Nat} {pol : OverflowPolicy} {prog : List Byte} {d k : Nat}
    {t u : State} (h : RunFromBoot cap pol prog d k t) (hstep : step t = .next u) :
    RunFromBoot cap pol prog d (k + 1) u := by
  obtain ⟨hcap, hpol, hprog⟩ := step_keeps_parameters hstep
  refine ⟨step_inv h.inv hstep, hcap.trans h.capacity, hpol.trans h.overflowPolicy,
    hprog.trans h.program, ?out, fun hu => ?draws⟩
  case out =>
    have hout := h.out
    rcases step_out hstep with ho | ⟨-, e, ho⟩
    · rw [ho]
      omega
    · rw [ho, List.length_append, List.length_singleton]
      omega
  case draws =>
    obtain ⟨hrun, -⟩ := step_next_cases hstep
    rw [step_draws hstep hu]
    exact h.draws (State.safe_of_running hrun)

end Sys2Proof.Machine

/-! ### The obligations about every step and every run -/

namespace Sys2Proof.Proofs

open Sys2Proof.Machine

/-- Settles O3: a raise cuts `ip` and the stack to their ranges, and a completed instruction keeps them
there. -/
theorem everyStepKeepsTheInvariant : Obligations.EveryStepKeepsTheInvariant := by
  unfold Obligations.EveryStepKeepsTheInvariant
  exact fun s t hs hstep => step_inv hs hstep

/-- Settles O5, by induction along the run: each step appends at most one event. -/
theorem runsOnlyAppendToTheOutput : Obligations.RunsOnlyAppendToTheOutput := by
  unfold Obligations.RunsOnlyAppendToTheOutput
  intro k s t hrun
  refine run_induction (P := fun k t => ∃ events, t.out = s.out ++ events ∧ events.length ≤ k)
    ⟨[], (List.append_nil _).symm, le_refl 0⟩ ?_ k t hrun
  rintro k t u ⟨events, ht, hlen⟩ hstep
  rcases step_out hstep with hu | ⟨-, e, hu⟩
  · exact ⟨events, hu.trans ht, Nat.le_succ_of_le hlen⟩
  · refine ⟨events ++ [e], ?_, ?_⟩
    · rw [hu, ht, List.append_assoc]
    · rw [List.length_append]
      exact Nat.succ_le_succ hlen

/-- Settles O2: both are constructions of a run. -/
theorem resetSatisfiesTheInvariant : Obligations.ResetSatisfiesTheInvariant := by
  unfold Obligations.ResetSatisfiesTheInvariant
  refine ⟨?_, State.boot_inv⟩
  rw [State.reset_eq_boot]
  exact State.boot_inv ..

/-- Settles O4, by induction along the run from its construction. -/
theorem everyRunStaysInBoundsAndKeepsItsProgram :
    Obligations.EveryRunStaysInBoundsAndKeepsItsProgram := by
  unfold Obligations.EveryRunStaysInBoundsAndKeepsItsProgram
  intro cap pol prog d k t hrun
  have h : RunFromBoot cap pol prog d k t :=
    run_induction (runFromBoot_boot cap pol prog d) (fun _ _ _ => RunFromBoot.step) k t hrun
  have hsize : t.program.size = prog.length := by rw [h.program, Memory.ofBytes_size]
  refine ⟨hsize ▸ h.inv.ip_le, h.capacity ▸ h.inv.stack_le, h.capacity, h.overflowPolicy, hsize,
    fun a => ?_, h.out, h.draws⟩
  rw [h.program, Memory.read_ofBytes]

/-- Settles O40: the program and the parameters are as before, and so is every MemRead. -/
theorem noStepChangesTheProgramOrTheParameters :
    Obligations.NoStepChangesTheProgramOrTheParameters := by
  unfold Obligations.NoStepChangesTheProgramOrTheParameters
  intro s t hstep
  obtain ⟨hcap, hpol, hprog⟩ := step_keeps_parameters hstep
  exact ⟨hcap, hpol, congrArg Memory.size hprog, memRead_congr hprog⟩

/-- Settles O41: only an instruction that completes emits, and it leaves the state safe. -/
theorem aStepEmitsAtMostOneEventAndAFaultingStepNone :
    Obligations.AStepEmitsAtMostOneEventAndAFaultingStepNone := by
  unfold Obligations.AStepEmitsAtMostOneEventAndAFaultingStepNone
  intro s t hstep
  refine ⟨(step_out hstep).imp_right And.right, fun k hk => ?_⟩
  exact (step_out hstep).resolve_right fun ⟨hsafe, _⟩ => hsafe k hk

/-- Settles O42: a step ends in Halted exactly when it ran HALT, whose effect is the status alone. -/
theorem onlyHaltHaltsAndNothingLeavesAnEnd : Obligations.OnlyHaltHaltsAndNothingLeavesAnEnd := by
  unfold Obligations.OnlyHaltHaltsAndNothingLeavesAnEnd
  intro s t hstep
  obtain ⟨hrun, -⟩ := step_next_cases hstep
  refine ⟨hrun, ?_, step_halted_iff hstep, fun hhalt => ?_⟩
  · match ht : t.status with
    | .running => exact .inl rfl
    | .halted => exact .inr (.inl ht)
    | .faulted k => exact .inr (.inr ⟨k, ht⟩)
  · rw [step_of_fetch hrun ((step_halted_iff hstep).mp hhalt), exec_halt] at hstep
    cases hstep
    rfl

/-- Settles O43: the step was a raise, which is exact but for `ip` and the stack. -/
theorem aFaultLeavesOutputAndProgramExact : Obligations.AFaultLeavesOutputAndProgramExact := by
  unfold Obligations.AFaultLeavesOutputAndProgramExact
  intro s t k hstep ht
  obtain ⟨-, rfl⟩ := eq_raise_of_step_faulted hstep ht
  exact ⟨raise_faultedFrom k s, raise_ip_le k s, raise_stackTop_le k s⟩

/-- Settles O44: the instructions' faults are those of their rows, and the fetch has two of its own. -/
theorem eachFaultIsRaisedOnlyWhereTheTableSays :
    Obligations.EachFaultIsRaisedOnlyWhereTheTableSays := by
  unfold Obligations.EachFaultIsRaisedOnlyWhereTheTableSays
  refine ⟨fun i s k hrun hcap hfault => ?_, fun s k => fetch_error_cases⟩
  cases raises_of_faultsWith (State.safe_of_running hrun) hfault with
  | listed hrow policy => exact ⟨hrow, policy⟩
  | overfull hover => omega

/-- Settles O49, by induction along the run: the policy stays Wrap, and no step under Wrap raises the
fault. -/
theorem wrapNeverRaisesArithmeticOverflow : Obligations.WrapNeverRaisesArithmeticOverflow := by
  unfold Obligations.WrapNeverRaisesArithmeticOverflow
  intro k s t hpol hs hrun
  refine (run_induction
    (P := fun _ t => t.overflowPolicy = .wrap ∧ t.status ≠ .faulted .arithmeticOverflow)
    ⟨hpol, hs⟩ ?_ k t hrun).2
  rintro _ t u ⟨htp, -⟩ hstep
  obtain ⟨-, hup, -⟩ := step_keeps_parameters hstep
  refine ⟨hup.trans htp, fun hu => ?_⟩
  obtain ⟨hraise, -⟩ := eq_raise_of_step_faulted hstep hu
  cases htp.symm.trans hraise.policy_of_overflow

/-- Settles O18: the step completed, so its jump took the top of the stack, checked, as `ip`. -/
theorem takenJumpInstallsExactlyTheTarget : Obligations.TakenJumpInstallsExactlyTheTarget := by
  unfold Obligations.TakenJumpInstallsExactlyTheTarget
  intro s t i hstep ht hf hj
  have hc : Completes i s t := completes_of_step_safe hstep ht hf
  rcases hc.ip with ⟨-, v, hv, h0, h1, hip⟩ | ⟨rfl, -⟩ | ⟨hj', -⟩
  · obtain ⟨rest, hstack⟩ := List.head?_eq_some_iff.mp hv
    rw [hc.program]
    exact ⟨v, rest, hstack, h0, by omega, by omega⟩
  · simp [Instr.takesJump] at hj
  · exact absurd hj hj'

/-- Settles O39: a raise is exact but for `ip` and the stack, and a completed instruction replaces its
operands by its results. -/
theorem everyInstructionLeavesTheRestAlone : Obligations.EveryInstructionLeavesTheRestAlone := by
  unfold Obligations.EveryInstructionLeavesTheRestAlone
  intro i s t hexec
  rcases exec_cases hexec with ⟨k, -, rfl⟩ | hc
  · exact ⟨rfl, rfl, fun _ => rfl, rfl, fun _ => rfl, fun ht => absurd ht (not_safe_raise k s)⟩
  · refine ⟨hc.capacity, hc.overflowPolicy, memRead_congr hc.program, hc.program, fun hquiet => ?_,
      fun _ => ⟨hc.status_eq, hc.draws, ?_⟩⟩
    · exact hc.out.resolve_right fun ⟨hemits, _⟩ => by simp [hquiet] at hemits
    · obtain ⟨popped, pushed, rest, hs, ht, hpop, hpush⟩ := hc.stack
      rw [State.stackTop_eq, State.stackTop_eq, hs, ht, ← hpop, ← hpush, List.length_append,
        List.length_append, List.drop_left, List.drop_left]
      exact ⟨by omega, by omega, rfl⟩

end Sys2Proof.Proofs
end

section
/-! SUPPORT. The decoder against the encoder (30_encoding.md), and the fetch against the bytes of the
program, wherever an instruction stands in it (20_memory.md). -/

/-! ### Single instructions and whole programs -/

namespace Sys2Proof

theorem decode_encode_append (i : Instr) (rest : List Byte) :
    decode (encode i ++ rest) = .ok (i, rest) := by
  cases i <;> rfl

/-- Every instruction has one encoding, and bytes decode to it only if they begin with that. -/
theorem decode_eq_ok_iff {bs rest : List Byte} {i : Instr} :
    decode bs = .ok (i, rest) ↔ bs = encode i ++ rest := by
  constructor
  · intro h
    cases bs with
    | nil => cases h
    | cons b tail =>
      rcases decode_cases h with ⟨j, hd, hr⟩ | ⟨-, -, hr⟩ | ⟨rfl, imm8, tail', rfl, hr⟩ | ⟨-, hr⟩
      · cases hr
        rw [(decodeOpcode_complete hd).1, List.singleton_append]
      · cases hr
      · cases hr
        rfl
      · cases hr
  · rintro rfl
    exact decode_encode_append i rest

theorem encode_length_pos (i : Instr) : 0 < (encode i).length := by
  cases i <;> exact Nat.succ_pos _

theorem encodeProgram_cons (i : Instr) (is : List Instr) :
    encodeProgram (i :: is) = encode i ++ encodeProgram is :=
  List.flatMap_cons

/-- Reading a sequence takes the instruction at its start and reads on after it. -/
theorem decodeUpTo_succ_eq_ok_iff {fuel : Nat} {b : Byte} {bs : List Byte} {is : List Instr} :
    decodeUpTo (fuel + 1) (b :: bs) = .ok is ↔
      ∃ i rest is', decode (b :: bs) = .ok (i, rest) ∧ decodeUpTo fuel rest = .ok is' ∧
        is = i :: is' := by
  rw [decodeUpTo]
  match decode (b :: bs) with
  | .error e => simp
  | .ok (i, rest) =>
    simp only [Except.ok.injEq, Prod.mk.injEq]
    match hrest : decodeUpTo fuel rest with
    | .error e => simp [hrest]
    | .ok is' => simp [hrest, eq_comm]

/-- Every instruction takes a byte, so the number of bytes is fuel enough. -/
theorem decodeUpTo_encodeProgram (is : List Instr) (fuel : Nat)
    (h : (encodeProgram is).length ≤ fuel) : decodeUpTo fuel (encodeProgram is) = .ok is := by
  induction is generalizing fuel with
  | nil => cases fuel <;> rfl
  | cons i is ih =>
    have hpos := encode_length_pos i
    rw [encodeProgram_cons, List.length_append] at h
    have hdec : decode (encode i ++ encodeProgram is) = .ok (i, encodeProgram is) :=
      decode_encode_append i _
    rw [encodeProgram_cons]
    match fuel, encode i ++ encodeProgram is, hdec with
    | 0, _, _ => omega
    | _ + 1, [], hdec => cases hdec
    | fuel + 1, _ :: _, hdec =>
      exact decodeUpTo_succ_eq_ok_iff.mpr ⟨i, _, is, hdec, ih fuel (by omega), rfl⟩

theorem encodeProgram_of_decodeUpTo {fuel : Nat} {bs : List Byte} {is : List Instr}
    (h : decodeUpTo fuel bs = .ok is) : encodeProgram is = bs := by
  induction fuel generalizing bs is with
  | zero =>
    cases bs with
    | nil => cases h; rfl
    | cons b bs => cases h
  | succ fuel ih =>
    cases bs with
    | nil => cases h; rfl
    | cons b bs =>
      obtain ⟨i, rest, is', hdec, hrest, rfl⟩ := decodeUpTo_succ_eq_ok_iff.mp h
      rw [encodeProgram_cons, ih hrest, ← decode_eq_ok_iff.mp hdec]

/-- The instruction that a table word holds, with its bytes: they are the first of the word's. -/
theorem tableBytes_of_decodeTableWord {nbits w : Nat} {i : Instr}
    (h : decodeTableWord nbits w = some i) : ∃ rest, tableBytes nbits w = encode i ++ rest := by
  rw [decodeTableWord] at h
  match hd : decode (tableBytes nbits w) with
  | .error e => rw [hd] at h; cases h
  | .ok (j, rest) =>
    rw [hd] at h
    cases h
    exact ⟨rest, decode_eq_ok_iff.mp hd⟩

end Sys2Proof

/-! ### The fetch -/

namespace Sys2Proof.Machine

theorem fetch_of_decode {s : State} {i : Instr} {rest : List Byte}
    (h : decode (s.program.bytesFrom s.ip) = .ok (i, rest)) : fetch s = .ok i := by
  rw [fetch_eq_decode, h]

theorem fetch_of_decode_error {s : State} {e : DecodeError}
    (h : decode (s.program.bytesFrom s.ip) = .error e) : fetch s = .error (faultOfDecodeError e) := by
  rw [fetch_eq_decode, h]

/-- R54: the bytes from `ip` on that begin with an encoding are fetched as that instruction. -/
theorem fetch_of_bytesFrom {s : State} {i : Instr} {rest : List Byte}
    (h : s.program.bytesFrom s.ip = encode i ++ rest) : fetch s = .ok i :=
  fetch_of_decode (decode_eq_ok_iff.mpr h)

theorem memRead_of_read {s : State} {a : Nat} {b : Byte} (h : s.program.read a = some b) :
    memRead s a = .ok b := by
  rw [memRead, h]

theorem Memory.bytesFrom_of_read {m : Memory} {a : Nat} {b : Byte} (h : m.read a = some b) :
    m.bytesFrom a = b :: m.bytesFrom (a + 1) := by
  rw [Memory.read] at h
  split at h
  next hlt =>
    cases h
    exact Memory.bytesFrom_eq_cons hlt
  next => cases h

/-- Two bytes placed at an address are the first two bytes from it on. -/
theorem Memory.bytesFrom_placeAll_pair {m : Memory} (h : m.wf) (a : Nat) (b c : Byte) :
    ∃ rest, (m.placeAll a [b, c]).bytesFrom a = b :: c :: rest := by
  have hm : m.placeAll a [b, c] = (m.place a b).place (a + 1) c := rfl
  have hin : a < (m.place a b).size := lt_of_lt_of_le (Nat.lt_succ_self a) (Nat.le_max_right _ _)
  have hb : ((m.place a b).place (a + 1) c).read a = some b := by
    rw [Memory.read_place_other c (Nat.succ_ne_self a) hin, Memory.read_place_same h]
  have hc : ((m.place a b).place (a + 1) c).read (a + 1) = some c :=
    Memory.read_place_same (Memory.place_wf h a b) (a + 1) c
  rw [hm, Memory.bytesFrom_of_read hb, Memory.bytesFrom_of_read hc]
  exact ⟨_, rfl⟩

/-- Log 3: the instruction in a placed word is the one that the next step fetches. -/
theorem fetch_withFetchWord {s : State} {nbits w : Nat} {i : Instr} (h : s.program.wf)
    (hw : decodeTableWord nbits w = some i) : fetch (s.withFetchWord nbits w) = .ok i := by
  obtain ⟨rest, hbytes⟩ := tableBytes_of_decodeTableWord hw
  obtain ⟨rest', hplaced⟩ := Memory.bytesFrom_placeAll_pair h s.ip
    (BitVec.ofNat 8 (w % 2 ^ nbits)) (BitVec.ofNat 8 (w % 2 ^ nbits / 256))
  refine fetch_of_bytesFrom (rest := rest ++ rest') ?_
  calc (s.program.placeAll s.ip (tableBytes nbits w)).bytesFrom s.ip
      = tableBytes nbits w ++ rest' := hplaced
    _ = encode i ++ (rest ++ rest') := by rw [hbytes, List.append_assoc]

end Sys2Proof.Machine

/-! ### The obligations about the decoder and the fetch -/

namespace Sys2Proof.Proofs

open Sys2Proof.Machine

/-- Settles O7: the decoder's cases, against the encoding of each instruction. -/
theorem decodeAnswersExactlyTheEncodedInstruction :
    Obligations.DecodeAnswersExactlyTheEncodedInstruction := by
  unfold Obligations.DecodeAnswersExactlyTheEncodedInstruction
  exact fun bs i rest => decode_eq_ok_iff

/-- Settles O8, by induction on the instructions one way and on the fuel the other. -/
theorem programsDecodeToWhatTheyEncode : Obligations.ProgramsDecodeToWhatTheyEncode := by
  unfold Obligations.ProgramsDecodeToWhatTheyEncode
  exact ⟨fun is _ => decodeUpTo_encodeProgram is _ (le_refl _),
    fun bs is => encodeProgram_of_decodeUpTo⟩

/-- Settles O11: the fetch is the decoder on the bytes from `ip` on. -/
theorem stepRunsTheDecodedInstruction : Obligations.StepRunsTheDecodedInstruction := by
  unfold Obligations.StepRunsTheDecodedInstruction
  refine ⟨fun s i rest hrun hdec _ => step_of_fetch hrun (fetch_of_decode hdec),
    fun s b hrun hdec => ?_, fun s hrun hdec => ?_⟩
  · exact stepFaultsWith_of_fetch_error hrun (fetch_of_decode_error hdec)
  · exact stepFaultsWith_of_fetch_error hrun (fetch_of_decode_error hdec)

/-- Settles O12: dropping what stands before `ip` leaves the encoding at the front. -/
theorem anInstructionRunsWhereverItStands : Obligations.AnInstructionRunsWhereverItStands := by
  unfold Obligations.AnInstructionRunsWhereverItStands
  intro s pre i post hrun hprog hip
  refine step_of_fetch hrun (fetch_of_bytesFrom (rest := post) ?_)
  rw [hprog, hip, Memory.bytesFrom_ofBytes, List.append_assoc, List.drop_left]

/-- Settles O13: the two placed bytes are the first from `ip` on, and the status is Running. -/
theorem aPlacedWordIsTheNextInstruction : Obligations.APlacedWordIsTheNextInstruction := by
  unfold Obligations.APlacedWordIsTheNextInstruction
  exact fun s nbits w i hwf hw =>
    step_of_fetch (s.withFetchWord_status nbits w) (fetch_withFetchWord hwf hw)

/-- Settles O14: MemRead on both sides of N, and the two fetches that run past it. -/
theorem readingPastTheEndOfTheProgramFaults : Obligations.ReadingPastTheEndOfTheProgramFaults := by
  unfold Obligations.ReadingPastTheEndOfTheProgramFaults
  refine ⟨fun cap pol prog d a ha => memRead_of_read ?_, fun s a => memRead_of_ge,
    fun s hrun hend => ?_, fun s hrun hpush hend => ?_⟩
  · rw [State.boot_program, Memory.read_ofBytes, List.getD_eq_getElem _ _ ha,
      List.getElem?_eq_getElem ha]
  · exact stepFaultsWith_of_fetch_error hrun (fetch_past_end hend)
  · exact stepFaultsWith_of_fetch_error hrun (fetch_push_truncated hpush hend)

end Sys2Proof.Proofs
end

section
/-! SUPPORT. A step from a state with other parameters: another program of the same length, another
overflow policy. The two runs go side by side, so one lemma about `exec` serves both. -/

namespace Sys2Proof.Machine

/-! ### The operations do not look at the parameters they are not given -/

/-- The state with another policy and another program, all else unchanged. -/
def State.reparam (pol : OverflowPolicy) (m : Memory) (s : State) : State :=
  { s with overflowPolicy := pol, program := m }

theorem push_reparam (pol : OverflowPolicy) (m : Memory) (v : Word) (s : State) :
    push v (s.reparam pol m) = (push v s).map (State.reparam pol m) := by
  by_cases h : s.stackTop = s.capacity
  · rw [push_of_full v h, push_of_full v (s := s.reparam pol m) h]
    rfl
  · rw [push_of_room v h, push_of_room v (s := s.reparam pol m) h]
    rfl

theorem pop_reparam (pol : OverflowPolicy) (m : Memory) (s : State) :
    pop (s.reparam pol m) = (pop s).map (Prod.map id (State.reparam pol m)) := by
  match h : s.stack with
  | [] =>
    rw [pop_nil h, pop_nil (s := s.reparam pol m) h]
    rfl
  | v :: rest =>
    rw [pop_cons h, pop_cons (s := s.reparam pol m) h]
    rfl

theorem pop_keeps_program {s s' : State} {v : Word} (h : pop s = .ok (v, s')) :
    s'.program = s.program := by
  match hs : s.stack with
  | [] => rw [pop_nil hs] at h; cases h
  | v :: rest => rw [pop_cons hs] at h; cases h; rfl

/-- Two computations in sequence mirror two others when each part does. -/
theorem bind_eq_map_bind {α α' β β' : Type} {x : Except FaultKind α} {x' : Except FaultKind α'}
    {p : α → α'} {q : β → β'} {g : α → Except FaultKind β} {g' : α' → Except FaultKind β'}
    (hx : x' = x.map p) (hg : ∀ a, x = .ok a → g' (p a) = (g a).map q) :
    x' >>= g' = (x >>= g).map q := by
  subst hx
  cases x with
  | error k => rfl
  | ok a => exact hg a rfl

theorem bind_eq_map_bind_same {α β β' : Type} {x x' : Except FaultKind α} {q : β → β'}
    {g : α → Except FaultKind β} {g' : α → Except FaultKind β'} (hx : x' = x)
    (hg : ∀ a, g' a = (g a).map q) : x' >>= g' = (x >>= g).map q :=
  bind_eq_map_bind (p := id) (by rw [hx, Except.map_id, id]) fun a _ => hg a

theorem pop2_reparam (pol : OverflowPolicy) (m : Memory) (s : State) :
    pop2 (s.reparam pol m) = (pop2 s).map (Prod.map id (Prod.map id (State.reparam pol m))) :=
  bind_eq_map_bind (pop_reparam pol m s) fun ⟨_, s₁⟩ _ =>
    bind_eq_map_bind (pop_reparam pol m s₁) fun _ _ => rfl

theorem pop2_keeps_program {s s' : State} {a b : Word} (h : pop2 s = .ok (a, b, s')) :
    s'.program = s.program := by
  match hs : s.stack with
  | [] => rw [pop2_nil hs] at h; cases h
  | [_] => rw [pop2_singleton hs] at h; cases h
  | _ :: _ :: _ => rw [pop2_cons_cons hs] at h; cases h; rfl

theorem checkTarget_reparam {pol : OverflowPolicy} {m : Memory} {s : State}
    (h : m.size = s.program.size) (t : Word) :
    checkTarget (s.reparam pol m) t = checkTarget s t := by
  have hsize : (s.reparam pol m).program.size = s.program.size := h
  rw [checkTarget, checkTarget, hsize]

/-- Under Wrap an integer has the result that it has under the policy given, if it has one there. -/
theorem toInt32_policy {pol pol' : OverflowPolicy} (h : pol' = pol ∨ pol' = .wrap) (v : Int) :
    (pol' ≠ pol ∧ toInt32 pol v = .error .arithmeticOverflow) ∨ toInt32 pol' v = toInt32 pol v := by
  by_cases hv : InInt32 v
  · exact .inr ((toInt32_of_inInt32 hv).trans (toInt32_of_inInt32 hv).symm)
  · match pol, pol', h with
    | .fault, .wrap, _ => exact .inl ⟨nofun, toInt32_fault_of_not hv⟩
    | .wrap, .wrap, _ | .fault, .fault, _ => exact .inr rfl

/-! ### The instructions -/

/-- Two outcomes go side by side: the second, from the state with other parameters, completes in the
first one's state with those parameters, or raises the first one's fault. -/
def SideBySide (pol : OverflowPolicy) (m : Memory) (s : State) (o o' : Outcome) : Prop :=
  ∃ r, o = conclude s r ∧ o' = conclude (s.reparam pol m) (r.map (State.reparam pol m))

theorem sideBySide_conclude {pol : OverflowPolicy} {m : Memory} {s : State}
    {r r' : Except FaultKind State} (h : r' = r.map (State.reparam pol m)) :
    SideBySide pol m s (conclude s r) (conclude (s.reparam pol m) r') :=
  ⟨r, rfl, h ▸ rfl⟩

/-- The arithmetic instructions go side by side as far as their operations do. -/
theorem binary_sideBySide {op op' : Word → Word → Except FaultKind Word} {P : Prop}
    (pol : OverflowPolicy) (m : Memory) (i : Instr) (s : State)
    (hop : ∀ b a, (P ∧ op b a = .error .arithmeticOverflow) ∨ op' b a = op b a) :
    (P ∧ binary i op s = .next (raise .arithmeticOverflow s)) ∨
      SideBySide pol m s (binary i op s) (binary i op' (s.reparam pol m)) := by
  have mirrored (hsame : ∀ a b s₁, pop2 s = .ok (a, b, s₁) → op' b a = op b a) :
      SideBySide pol m s (binary i op s) (binary i op' (s.reparam pol m)) :=
    sideBySide_conclude <| bind_eq_map_bind (pop2_reparam pol m s) fun ⟨a, b, s₁⟩ h =>
      bind_eq_map_bind_same (hsame a b s₁ h) fun v =>
        bind_eq_map_bind (push_reparam pol m v s₁) fun _ _ => rfl
  match hs : s.stack with
  | [] => exact .inr (mirrored fun a b s₁ h => by rw [pop2_nil hs] at h; cases h)
  | [_] => exact .inr (mirrored fun a b s₁ h => by rw [pop2_singleton hs] at h; cases h)
  | a :: b :: rest =>
    rcases hop b a with ⟨hP, herr⟩ | hsame
    · exact .inl ⟨hP, binary_error i op hs herr⟩
    · exact .inr (mirrored fun a' b' s₁ h => by rw [pop2_cons_cons hs] at h; cases h; exact hsame)

theorem jumpIf_sideBySide {m : Memory} {s : State} (pol : OverflowPolicy) (i : Instr)
    (c : Word → Bool) (h : m.size = s.program.size) :
    SideBySide pol m s (jumpIf i c s) (jumpIf i c (s.reparam pol m)) := by
  refine sideBySide_conclude <| bind_eq_map_bind (pop2_reparam pol m s) fun ⟨t, v, s₁⟩ h₁ => ?_
  have hsize : m.size = s₁.program.size := by rw [pop2_keeps_program h₁, h]
  refine bind_eq_map_bind_same (checkTarget_reparam hsize t) fun target => ?_
  by_cases hc : c v
  · simp only [id, hc, if_true]
    rfl
  · simp only [id, hc]
    rfl

theorem output_sideBySide (pol : OverflowPolicy) (m : Memory) (i : Instr) (e : Word → Event)
    (s : State) : SideBySide pol m s (output i e s) (output i e (s.reparam pol m)) :=
  sideBySide_conclude <| bind_eq_map_bind (pop_reparam pol m s) fun _ _ => rfl

theorem execJmp_sideBySide {m : Memory} {s : State} (pol : OverflowPolicy)
    (h : m.size = s.program.size) : SideBySide pol m s (execJmp s) (execJmp (s.reparam pol m)) := by
  refine sideBySide_conclude <| bind_eq_map_bind (pop_reparam pol m s) fun ⟨t, s₁⟩ h₁ => ?_
  have hsize : m.size = s₁.program.size := by rw [pop_keeps_program h₁, h]
  exact bind_eq_map_bind_same (checkTarget_reparam hsize t) fun _ => rfl

/-- With another program of the same length, and the same policy or Wrap, an instruction does the same
as before, unless it overflowed and the policy is another. -/
theorem exec_sideBySide {pol : OverflowPolicy} {m : Memory} {s : State} (i : Instr)
    (hm : m.size = s.program.size) (hpol : pol = s.overflowPolicy ∨ pol = .wrap) :
    (pol ≠ s.overflowPolicy ∧ exec i s = .next (raise .arithmeticOverflow s)) ∨
      SideBySide pol m s (exec i s) (exec i (s.reparam pol m)) := by
  have result (f : Int → Int → Int) (b a : Word) :=
    toInt32_policy hpol (f b.toInt a.toInt)
  cases i with
  | push imm8 =>
    exact .inr <| sideBySide_conclude <|
      bind_eq_map_bind (push_reparam pol m (zext32 imm8) s) fun _ _ => rfl
  | pop =>
    exact .inr <| sideBySide_conclude <| bind_eq_map_bind (pop_reparam pol m s) fun _ _ => rfl
  | dup =>
    exact .inr <| sideBySide_conclude <| bind_eq_map_bind (pop_reparam pol m s) fun ⟨x, s₁⟩ _ =>
      bind_eq_map_bind (push_reparam pol m x s₁) fun s₂ _ =>
        bind_eq_map_bind (push_reparam pol m x s₂) fun _ _ => rfl
  | swap =>
    exact .inr <| sideBySide_conclude <| bind_eq_map_bind (pop2_reparam pol m s) fun ⟨a, b, s₁⟩ _ =>
      bind_eq_map_bind (push_reparam pol m a s₁) fun s₂ _ =>
        bind_eq_map_bind (push_reparam pol m b s₂) fun _ _ => rfl
  | add => exact binary_sideBySide pol m .add s (result (· + ·))
  | sub => exact binary_sideBySide pol m .sub s (result (· - ·))
  | mul => exact binary_sideBySide pol m .mul s (result (· * ·))
  | div =>
    rw [exec_div, exec_div]
    refine binary_sideBySide pol m .div s fun b a => ?_
    by_cases ha : a.toInt = 0
    · rw [checkDivisor_zero ha]
      exact .inr rfl
    · rw [checkDivisor_nonzero ha]
      exact result tdiv b a
  | mod =>
    rw [exec_mod, exec_mod]
    exact binary_sideBySide pol m .mod s fun _ _ => .inr rfl
  | jmp => exact .inr (execJmp_sideBySide pol hm)
  | jz =>
    rw [exec_jz, exec_jz]
    exact .inr (jumpIf_sideBySide pol .jz _ hm)
  | jnz =>
    rw [exec_jnz, exec_jnz]
    exact .inr (jumpIf_sideBySide pol .jnz _ hm)
  | nop => exact .inr ⟨.ok (s.advance .nop), rfl, rfl⟩
  | print =>
    rw [exec_print, exec_print]
    exact .inr (output_sideBySide pol m .print _ s)
  | printChar =>
    rw [exec_printChar, exec_printChar]
    exact .inr (output_sideBySide pol m .printChar _ s)
  | halt => exact .inr ⟨.ok s.halt, rfl, rfl⟩

/-! ### The step -/

theorem memRead_reparam {pol : OverflowPolicy} {m : Memory} {s : State} {a : Nat}
    (h : m.read a = s.program.read a) : memRead (s.reparam pol m) a = memRead s a := by
  have hread : (s.reparam pol m).program.read a = s.program.read a := h
  rw [memRead, memRead, hread]

/-- The fetch reads at `ip` and `ip + 1` alone. -/
theorem fetch_reparam {pol : OverflowPolicy} {m : Memory} {s : State}
    (h0 : m.read s.ip = s.program.read s.ip) (h1 : m.read (s.ip + 1) = s.program.read (s.ip + 1)) :
    fetch (s.reparam pol m) = fetch s := by
  have hip : (s.reparam pol m).ip = s.ip := rfl
  rw [fetch, fetch, hip, memRead_reparam h0, memRead_reparam h1]

/-- The state `u` is `t` with other parameters, or both are raises of one fault, in two states of which
that holds. -/
def Mirrors (pol : OverflowPolicy) (m : Memory) (t u : State) : Prop :=
  u = t.reparam pol m ∨ ∃ k s, t = raise k s ∧ u = raise k (s.reparam pol m)

theorem Mirrors.agree {pol : OverflowPolicy} {m : Memory} {t u : State} (h : Mirrors pol m t u) :
    Agree t u ∧ u.program = m ∧ u.capacity = t.capacity ∧ u.overflowPolicy = pol := by
  rcases h with rfl | ⟨k, s, rfl, rfl⟩
  · exact ⟨⟨rfl, rfl, fun _ => rfl, fun _ => rfl⟩, rfl, rfl, rfl⟩
  · exact ⟨⟨rfl, rfl, fun hs => absurd hs (not_safe_raise k s),
      fun hs => absurd hs (not_safe_raise k s)⟩, rfl, rfl, rfl⟩

/-- A safe state is no raise, so what mirrors it is that state with other parameters. -/
theorem Mirrors.eq_reparam {pol : OverflowPolicy} {m : Memory} {t u : State} (h : Mirrors pol m t u)
    (ht : t.Safe) : u = t.reparam pol m := by
  rcases h with h | ⟨k, s, rfl, -⟩
  · exact h
  · exact absurd ht (not_safe_raise k s)

theorem SideBySide.mirrors {pol : OverflowPolicy} {m : Memory} {s t : State} {o o' : Outcome}
    (h : SideBySide pol m s o o') (ho : o = .next t) : ∃ u, o' = .next u ∧ Mirrors pol m t u := by
  obtain ⟨r, rfl, rfl⟩ := h
  rcases conclude_next_iff.mp ho with rfl | ⟨k, rfl, rfl⟩
  · exact ⟨_, rfl, .inl rfl⟩
  · exact ⟨_, rfl, .inr ⟨k, s, rfl, rfl⟩⟩

/-- With other parameters under which the same instruction is fetched, a step mirrors the step, unless
that one overflowed and the policy is another. -/
theorem step_mirrors {pol : OverflowPolicy} {m : Memory} {s t : State}
    (hm : m.size = s.program.size) (hpol : pol = s.overflowPolicy ∨ pol = .wrap)
    (hf : fetch (s.reparam pol m) = fetch s) (h : step s = .next t) :
    (pol ≠ s.overflowPolicy ∧ t.status = .faulted .arithmeticOverflow) ∨
      ∃ u, step (s.reparam pol m) = .next u ∧ Mirrors pol m t u := by
  obtain ⟨hrun, ⟨k, hk, rfl⟩ | ⟨i, hi, hexec⟩⟩ := step_next_cases h
  all_goals have hrun' : (s.reparam pol m).status = .running := hrun
  · exact .inr ⟨_, step_of_fetch_error hrun' (hf.trans hk), .inr ⟨k, s, rfl, rfl⟩⟩
  · rw [step_of_fetch hrun' (hf.trans hi)]
    rcases exec_sideBySide i hm hpol with ⟨hne, hover⟩ | hside
    · rw [hover] at hexec
      cases hexec
      exact .inl ⟨hne, rfl⟩
    · exact .inr (hside.mirrors hexec)

/-- R33: no run writes the program. -/
theorem run_keeps_program {k : Nat} {s t : State} (h : core.run k s = .next t) :
    t.program = s.program :=
  run_induction (P := fun _ t => t.program = s.program) rfl
    (fun _ _ _ ht hstep => (step_keeps_parameters hstep).2.2.trans ht) k t h

/-- R68: a run that does not end in an overflow is mirrored by the run under Wrap. -/
theorem run_mirrors {k : Nat} {s t : State}
    (h : core.run k s = .next t) (ht : t.status ≠ .faulted .arithmeticOverflow) :
    ∃ u : State, core.run k (s.reparam .wrap s.program) = .next u ∧
      Mirrors .wrap s.program t u := by
  induction k generalizing t with
  | zero =>
    cases h
    exact ⟨_, rfl, .inl rfl⟩
  | succ k ih =>
    obtain ⟨v, hv, hstep⟩ := (run_succ_last k s t).mp h
    obtain ⟨hrun, -⟩ := step_next_cases hstep
    have hsafe : v.Safe := State.safe_of_running hrun
    obtain ⟨u, hu, hmirror⟩ := ih hv (hsafe _)
    obtain rfl := hmirror.eq_reparam hsafe
    have hprog : v.program = s.program := run_keeps_program hv
    have hf : fetch (v.reparam .wrap s.program) = fetch v :=
      fetch_reparam (by rw [hprog]) (by rw [hprog])
    rcases step_mirrors (by rw [hprog]) (.inr rfl) hf hstep with ⟨-, hover⟩ | ⟨w, hw, hmirror'⟩
    · exact absurd hover ht
    · exact ⟨w, (run_succ_last ..).mpr ⟨_, hu, hw⟩, hmirror'⟩

end Sys2Proof.Machine

/-! ### The obligations about two runs -/

namespace Sys2Proof.Proofs

open Sys2Proof.Machine

/-- Settles O48, by induction on the steps: each step under Wrap mirrors the one under Fault. -/
theorem runsWithoutOverflowDoNotDependOnThePolicy :
    Obligations.RunsWithoutOverflowDoNotDependOnThePolicy := by
  unfold Obligations.RunsWithoutOverflowDoNotDependOnThePolicy
  intro k s t _ hrun ht
  obtain ⟨u, hu, hmirror⟩ := run_mirrors hrun ht
  obtain ⟨hagree, hprog, hcap, hwrap⟩ := hmirror.agree
  exact ⟨u, hu, hagree, hprog.trans (run_keeps_program hrun).symm, hcap, hwrap⟩

/-- Settles O47: the fetch reads the two bytes alone, and an instruction the program's length. -/
theorem aStepSeesOnlyTheBytesAtItsAddress : Obligations.AStepSeesOnlyTheBytesAtItsAddress := by
  unfold Obligations.AStepSeesOnlyTheBytesAtItsAddress
  intro s t m hsize h0 h1 hstep
  rcases step_mirrors hsize (.inl rfl) (fetch_reparam h0 h1) hstep with ⟨hne, -⟩ | ⟨u, hu, hmirror⟩
  · exact absurd rfl hne
  · obtain ⟨hagree, hprog, hcap, hpol⟩ := hmirror.agree
    obtain ⟨-, hkeep, -⟩ := step_keeps_parameters hstep
    exact ⟨u, hu, hagree, hprog, hcap, hpol.trans hkeep.symm⟩

end Sys2Proof.Proofs
end

section
/-! SUPPORT. The integer laws (40_execution_cycle.md R68, R69): the results of `toInt32` under each
policy, and division toward zero with the remainder that goes with it. -/

namespace Sys2Proof.Machine

/-! ### Results -/

/-- R68: a result in range is exact, under both policies. -/
theorem toInt32_exact (pol : OverflowPolicy) {v : Int} (h : InInt32 v) :
    ∃ r, toInt32 pol v = .ok r ∧ r.toInt = v :=
  ⟨_, toInt32_of_inInt32 h, toInt_ofInt_of_inInt32 h⟩

/-- R68: under Wrap every integer has the result that two's complement gives it, an integer in range
itself. -/
theorem toInt32_wrap (v : Int) :
    ∃ r, toInt32 .wrap v = .ok r ∧ r.toInt = (v + 2 ^ 31) % 2 ^ 32 - 2 ^ 31 := by
  by_cases h : InInt32 v
  · obtain ⟨r, hr, hv⟩ := toInt32_exact .wrap h
    refine ⟨r, hr, ?_⟩
    simp only [InInt32, int32Min, int32Max] at h
    omega
  · exact ⟨_, toInt32_wrap_of_not h, toInt_ofInt_of_inInt32 (wrapped_inInt32 v)⟩

/-! ### Division -/

theorem mul_tdiv_add_trem (b a : Int) : a * tdiv b a + trem b a = b := by
  rw [trem]
  omega

theorem natAbs_tdiv (b a : Int) : (tdiv b a).natAbs = b.natAbs / a.natAbs := by
  rw [tdiv_eq, Int.natAbs_tdiv]
  rfl

theorem natAbs_trem (b a : Int) : (trem b a).natAbs = b.natAbs % a.natAbs := by
  rw [trem_eq, Int.natAbs_tmod]

theorem natAbs_trem_lt {a : Int} (b : Int) (h : a ≠ 0) : (trem b a).natAbs < a.natAbs := by
  rw [natAbs_trem]
  exact Nat.mod_lt _ (Int.natAbs_pos.mpr h)

theorem trem_eq_zero_or_sign (b a : Int) : trem b a = 0 ∨ (trem b a).sign = b.sign := by
  rw [trem_eq]
  by_cases h : a ∣ b
  · exact .inl (Int.tmod_eq_zero_of_dvd h)
  · exact .inr (by rw [Int.sign_tmod, if_neg h])

theorem tdiv_eq_zero_or_sign (b a : Int) : tdiv b a = 0 ∨ (tdiv b a).sign = b.sign * a.sign := by
  by_cases h : b.natAbs < a.natAbs
  · refine .inl (Int.natAbs_eq_zero.mp ?_)
    rw [natAbs_tdiv, Nat.div_eq_of_lt h]
  · exact .inr (by rw [tdiv_eq, Int.sign_tdiv, if_neg h])

/-- A remainder is nearer to 0 than its divisor, and no int32 is further from 0 than 2^31. -/
theorem trem_inInt32 (b : Int) {a : Word} (h : a.toInt ≠ 0) : InInt32 (trem b a.toInt) := by
  have hlt := natAbs_trem_lt b h
  have ha := inInt32_toInt a
  simp only [InInt32, int32Min, int32Max] at ha ⊢
  omega

/-- A quotient is no further from 0 than its dividend, so only 2^31 could leave the range. -/
theorem tdiv_inInt32_iff (b : Word) {a : Word} (h : a.toInt ≠ 0) :
    InInt32 (tdiv b.toInt a.toInt) ↔ ¬(b.toInt = int32Min ∧ a.toInt = -1) := by
  have hb := inInt32_toInt b
  have hle : (tdiv b.toInt a.toInt).natAbs ≤ b.toInt.natAbs := by
    rw [natAbs_tdiv]
    exact Nat.div_le_self _ _
  generalize b.toInt = y at *
  generalize a.toInt = x at *
  simp only [InInt32, int32Min, int32Max] at *
  by_cases h1 : x = -1
  · subst h1
    rw [tdiv_eq, Int.tdiv_neg, Int.tdiv_one]
    omega
  · by_cases hy : y = -2 ^ 31
    · by_cases h2 : x = 1
      · subst h2
        rw [tdiv_eq, Int.tdiv_one]
        omega
      · have hhalf : (tdiv y x).natAbs ≤ y.natAbs / 2 := by
          rw [natAbs_tdiv]
          exact Nat.div_le_div_left (by omega) (by norm_num)
        omega
    · omega

end Sys2Proof.Machine

/-! ### The obligations about results -/

namespace Sys2Proof.Proofs

open Sys2Proof.Machine

/-- Settles O21: the three cases of `toInt32`. -/
theorem resultsAreExactWrappedOrOverflow : Obligations.ResultsAreExactWrappedOrOverflow := by
  unfold Obligations.ResultsAreExactWrappedOrOverflow
  exact ⟨fun pol v => toInt32_exact pol, fun v h => ⟨toInt32_wrap v, toInt32_fault_of_not h⟩⟩

/-- Settles O22: the laws of the truncating division, and the one quotient that leaves the range. -/
theorem divisionTruncatesAndRemainderFollowsTheDividend :
    Obligations.DivisionTruncatesAndRemainderFollowsTheDividend := by
  unfold Obligations.DivisionTruncatesAndRemainderFollowsTheDividend
  refine ⟨fun b a ha => ?_, fun b a ha => ⟨trem_inInt32 b.toInt ha, tdiv_inInt32_iff b ha⟩,
    by decide, by decide⟩
  exact ⟨mul_tdiv_add_trem b a, natAbs_trem_lt b ha, trem_eq_zero_or_sign b a, natAbs_tdiv b a,
    tdiv_eq_zero_or_sign b a⟩

end Sys2Proof.Proofs
end

section
/-! SUPPORT. The stack primitives and PUSH and DUP (40_execution_cycle.md R63, 41_stack.md): what they
answer on each kind of stack. -/

namespace Sys2Proof.Machine

/-! ### pop -/

/-- R63: pop takes off the value that a push would have put there. -/
theorem pop_ok_iff {v : Word} {s t : State} :
    pop s = .ok (v, t) ↔ s = { t with stack := v :: t.stack } := by
  constructor
  · intro h
    match hs : s.stack with
    | [] => rw [pop_nil hs] at h; cases h
    | w :: rest =>
      rw [pop_cons hs] at h
      cases h
      rw [← hs]
  · rintro rfl
    rfl

theorem exists_pop_of_stackTop_ne_zero {s : State} (h : s.stackTop ≠ 0) :
    ∃ v t, pop s = .ok (v, t) := by
  match hs : s.stack with
  | [] => exact absurd (State.stackTop_eq_zero_iff.mpr hs) h
  | v :: rest => exact ⟨v, _, pop_cons hs⟩

/-! ### PUSH and DUP -/

theorem exec_push_room {s : State} (imm8 : Byte) (h : s.stackTop < s.capacity) :
    exec (.push imm8) s = .next { s with stack := zext32 imm8 :: s.stack, ip := s.ip + 2 } := by
  rw [exec_push, execPush, push_of_room _ h.ne]
  rfl

theorem exec_push_full {s : State} (imm8 : Byte) (h : s.stackTop = s.capacity) :
    exec (.push imm8) s = .next (raise .stackOverflow s) := by
  rw [exec_push, execPush, push_of_full _ h]
  rfl

theorem exec_dup_nil {s : State} (h : s.stack = []) :
    exec .dup s = .next (raise .stackUnderflow s) := by
  rw [exec_dup, execDup, pop_nil h]
  rfl

/-- The pop makes room for the first of the two pushes. -/
theorem exec_dup_room {s : State} {x : Word} {rest : List Word} (h : s.stack = x :: rest)
    (hroom : s.stackTop < s.capacity) :
    exec .dup s = .next { s with stack := x :: x :: rest, ip := s.ip + 1 } := by
  have htop : s.stackTop = rest.length + 1 := by rw [State.stackTop_eq, h, List.length_cons]
  obtain ⟨t, ht⟩ := exec_total .dup s
  rw [ht]
  rcases execDup_cases ht with ⟨hnil, -⟩ | ⟨y, rest', h', ⟨hfull, -⟩ | ⟨-, -, rfl⟩⟩
  · cases h.symm.trans hnil
  · cases h.symm.trans h'
    omega
  · cases h.symm.trans h'
    rfl

theorem exec_dup_full {s : State} {x : Word} {rest : List Word} (h : s.stack = x :: rest)
    (hfull : s.stackTop = s.capacity) : exec .dup s = .next (raise .stackOverflow s) := by
  obtain ⟨t, ht⟩ := exec_total .dup s
  rw [ht]
  rcases execDup_cases ht with ⟨hnil, -⟩ | ⟨y, rest', h', ⟨-, rfl⟩ | ⟨-, hroom, -⟩⟩
  · cases h.symm.trans hnil
  · rfl
  · exact absurd hfull hroom

end Sys2Proof.Machine

namespace Sys2Proof.Proofs

open Sys2Proof.Machine

/-- Settles O20: pop is the inverse of push, so its slots are those that push wrote and left alone. -/
theorem popReturnsTheTopSlotOrUnderflows : Obligations.PopReturnsTheTopSlotOrUnderflows := by
  unfold Obligations.PopReturnsTheTopSlotOrUnderflows
  refine ⟨fun s h => pop_nil (State.stackTop_eq_zero_iff.mp h), fun s h => ?_, fun v s t hpush => ?_⟩
  · obtain ⟨v, t, hpop⟩ := exists_pop_of_stackTop_ne_zero h
    obtain rfl := pop_ok_iff.mp hpop
    exact ⟨v, t, hpop, t.slot_stackTop_cons v, rfl, fun i hi => (State.slot_cons_of_lt v hi).symm, rfl⟩
  · obtain ⟨-, rfl⟩ := push_ok_iff.mp hpush
    exact pop_ok_iff.mpr rfl

/-- Settles O23: PUSH's answer on a stack with room and on a full one, and the fetch that reads its
immediate first. -/
theorem pushPushesItsZeroExtendedImmediate : Obligations.PushPushesItsZeroExtendedImmediate := by
  unfold Obligations.PushPushesItsZeroExtendedImmediate
  refine ⟨fun _ => rfl, fun s imm8 hroom => ⟨_, toInt_zext32 imm8, exec_push_room imm8 hroom⟩,
    fun s imm8 hfull => faultsWith_of_exec_eq_raise (exec_push_full imm8 hfull),
    fun s imm8 hrun h0 h1 => step_of_fetch hrun (fetch_push h0 h1), fun s hrun h0 hend => ?_⟩
  exact stepFaultsWith_of_fetch_error hrun (fetch_push_truncated h0 hend.ge)

/-- Settles O25: DUP's answer on a stack with room, on the empty and on the full stack. -/
theorem dupDuplicatesTheTopValue : Obligations.DupDuplicatesTheTopValue := by
  unfold Obligations.DupDuplicatesTheTopValue
  refine ⟨rfl, fun s x rest => exec_dup_room, fun s hempty => ?_, fun s x rest hs hfull => ?_⟩
  · exact faultsWith_of_exec_eq_raise (exec_dup_nil (State.stackTop_eq_zero_iff.mp hempty))
  · exact faultsWith_of_exec_eq_raise (exec_dup_full hs hfull)

end Sys2Proof.Proofs
end

section
/-! SUPPORT. The five arithmetic instructions (42_arithmetic.md), from what their operation answers. -/

namespace Sys2Proof.Machine

/-! ### The shared shape -/

/-- The meaning of `i` is the shared shape of the arithmetic instructions with the operation `op`. -/
structure IsBinary (i : Instr) (s : State) (op : Word → Word → Except FaultKind Word) : Prop where
  length : i.length = 1
  exec_eq : exec i s = binary i op s

theorem IsBinary.exec_ok {i : Instr} {s : State} {op : Word → Word → Except FaultKind Word}
    {a b v : Word} {rest : List Word} (h : IsBinary i s op) (hs : s.stack = a :: b :: rest)
    (hcap : s.stackTop ≤ s.capacity) (hop : op b a = .ok v) :
    exec i s = .next { s with stack := v :: rest, ip := s.ip + 1 } := by
  rw [h.exec_eq, binary_ok i op hs hcap hop, h.length]

theorem IsBinary.faultsWith {i : Instr} {s : State} {op : Word → Word → Except FaultKind Word}
    {a b : Word} {rest : List Word} {k : FaultKind} (h : IsBinary i s op)
    (hs : s.stack = a :: b :: rest) (hop : op b a = .error k) : FaultsWith i s k :=
  faultsWith_of_exec_eq_raise (h.exec_eq.trans (binary_error i op hs hop))

theorem IsBinary.faultsWith_underflow {i : Instr} {s : State}
    {op : Word → Word → Except FaultKind Word} (h : IsBinary i s op) (hs : s.stackTop < 2) :
    FaultsWith i s .stackUnderflow :=
  faultsWith_of_exec_eq_raise (h.exec_eq.trans (binary_short i op hs))

/-! ### An integer function under the overflow policy -/

/-- ADD, SUB and MUL: an exact integer function of the operands, brought into range by `toInt32`. -/
def Computes (i : Instr) (f : Int → Int → Int) : Prop :=
  ∀ s : State, IsBinary i s fun b a => toInt32 s.overflowPolicy (f b.toInt a.toInt)

theorem computes_add : Computes .add (· + ·) := fun s => ⟨rfl, exec_add s⟩
theorem computes_sub : Computes .sub (· - ·) := fun s => ⟨rfl, exec_sub s⟩
theorem computes_mul : Computes .mul (· * ·) := fun s => ⟨rfl, exec_mul s⟩

theorem Computes.exact {i : Instr} {f : Int → Int → Int} (h : Computes i f) {s : State} {a b : Word}
    {rest : List Word} (hs : s.stack = a :: b :: rest) (hcap : s.stackTop ≤ s.capacity)
    (hin : InInt32 (f b.toInt a.toInt)) : ∃ v : Word, v.toInt = f b.toInt a.toInt ∧
      exec i s = .next { s with stack := v :: rest, ip := s.ip + 1 } := by
  obtain ⟨v, hv, hval⟩ := toInt32_exact s.overflowPolicy hin
  exact ⟨v, hval, (h s).exec_ok hs hcap hv⟩

theorem Computes.wraps {i : Instr} {f : Int → Int → Int} (h : Computes i f) {s : State} {a b : Word}
    {rest : List Word} (hs : s.stack = a :: b :: rest) (hcap : s.stackTop ≤ s.capacity)
    (hpol : s.overflowPolicy = .wrap) :
    ∃ v : Word, v.toInt = (f b.toInt a.toInt + 2 ^ 31) % 2 ^ 32 - 2 ^ 31 ∧
      exec i s = .next { s with stack := v :: rest, ip := s.ip + 1 } := by
  obtain ⟨v, hv, hval⟩ := toInt32_wrap (f b.toInt a.toInt)
  exact ⟨v, hval, (h s).exec_ok hs hcap (hpol ▸ hv)⟩

theorem Computes.overflows {i : Instr} {f : Int → Int → Int} (h : Computes i f) {s : State}
    {a b : Word} {rest : List Word} (hs : s.stack = a :: b :: rest) (hpol : s.overflowPolicy = .fault)
    (hout : ¬InInt32 (f b.toInt a.toInt)) : FaultsWith i s .arithmeticOverflow :=
  (h s).faultsWith hs (hpol ▸ toInt32_fault_of_not hout)

/-! ### The divisor -/

theorem checkDivisor_bind_zero {a : Word} (h : a.toInt = 0) (r : Except FaultKind Word) :
    (do checkDivisor a; r) = .error .divisionByZero := by
  rw [checkDivisor_zero h]
  rfl

theorem checkDivisor_bind_nonzero {a : Word} (h : a.toInt ≠ 0) (r : Except FaultKind Word) :
    (do checkDivisor a; r) = r := by
  rw [checkDivisor_nonzero h]
  rfl

theorem isBinary_div (s : State) : IsBinary .div s (fun b a => do
    checkDivisor a
    toInt32 s.overflowPolicy (tdiv b.toInt a.toInt)) := ⟨rfl, exec_div s⟩

theorem isBinary_mod (s : State) : IsBinary .mod s (fun b a => do
    checkDivisor a
    return BitVec.ofInt 32 (trem b.toInt a.toInt)) := ⟨rfl, exec_mod s⟩

/-- With a divisor other than 0, DIV completes with the result that `toInt32` gives the quotient. -/
theorem exec_div_ok {s : State} {a b v : Word} {rest : List Word} (hs : s.stack = a :: b :: rest)
    (hcap : s.stackTop ≤ s.capacity) (ha : a.toInt ≠ 0)
    (hv : toInt32 s.overflowPolicy (tdiv b.toInt a.toInt) = .ok v) :
    exec .div s = .next { s with stack := v :: rest, ip := s.ip + 1 } :=
  (isBinary_div s).exec_ok hs hcap ((checkDivisor_bind_nonzero ha _).trans hv)

end Sys2Proof.Machine

/-! ### The obligations of 42_arithmetic.md -/

namespace Sys2Proof.Proofs

open Sys2Proof.Machine

/-- Settles O27: ADD computes the sum under the overflow policy. -/
theorem addPushesTheSum : Obligations.AddPushesTheSum := by
  unfold Obligations.AddPushesTheSum
  exact ⟨rfl, fun s a b rest => computes_add.exact, fun s a b rest => computes_add.wraps,
    fun s a b rest => computes_add.overflows, fun s => (computes_add s).faultsWith_underflow⟩

/-- Settles O28: SUB computes the difference under the overflow policy. -/
theorem subPushesTheDifference : Obligations.SubPushesTheDifference := by
  unfold Obligations.SubPushesTheDifference
  exact ⟨rfl, fun s a b rest => computes_sub.exact, fun s a b rest => computes_sub.wraps,
    fun s a b rest => computes_sub.overflows, fun s => (computes_sub s).faultsWith_underflow⟩

/-- Settles O29: MUL computes the product under the overflow policy. -/
theorem mulPushesTheProduct : Obligations.MulPushesTheProduct := by
  unfold Obligations.MulPushesTheProduct
  exact ⟨rfl, fun s a b rest => computes_mul.exact, fun s a b rest => computes_mul.wraps,
    fun s a b rest => computes_mul.overflows, fun s => (computes_mul s).faultsWith_underflow⟩

/-- Settles O30: the quotient is in range but for -2^31 / -1, where it is 2^31: its wrap is -2^31, and
under Fault it overflows. -/
theorem divPushesTheTruncatedQuotient : Obligations.DivPushesTheTruncatedQuotient := by
  unfold Obligations.DivPushesTheTruncatedQuotient
  refine ⟨rfl, ?exact, ?wraps, ?overflows, ?zero, fun s => (isBinary_div s).faultsWith_underflow⟩
  case exact =>
    intro s a b rest hs hcap ha hne
    obtain ⟨v, hv, hval⟩ := toInt32_exact s.overflowPolicy ((tdiv_inInt32_iff b ha).mpr hne)
    exact ⟨v, hval.trans (tdiv_eq ..), exec_div_ok hs hcap ha hv⟩
  case wraps =>
    intro s a b rest hs hcap hb ha hpol
    obtain ⟨v, hv, hval⟩ := toInt32_wrap (tdiv b.toInt a.toInt)
    refine ⟨v, ?_, exec_div_ok hs hcap (by omega) (hpol ▸ hv)⟩
    rw [hval, hb, ha]
    decide
  case overflows =>
    intro s a b rest hs hb ha hpol
    have ha0 : a.toInt ≠ 0 := by omega
    refine (isBinary_div s).faultsWith hs ((checkDivisor_bind_nonzero ha0 _).trans ?_)
    rw [hpol]
    exact toInt32_fault_of_not fun hin => (tdiv_inInt32_iff b ha0).mp hin ⟨hb, ha⟩
  case zero =>
    exact fun s a b rest hs ha => (isBinary_div s).faultsWith hs (checkDivisor_bind_zero ha _)

/-- Settles O31: the remainder is in range whatever the operands, and MOD's row has no overflow. -/
theorem modPushesTheTruncatedRemainder : Obligations.ModPushesTheTruncatedRemainder := by
  unfold Obligations.ModPushesTheTruncatedRemainder
  refine ⟨rfl, ?completes, ?zero, fun s => (isBinary_mod s).faultsWith_underflow, ?never⟩
  case completes =>
    intro s a b rest hs hcap ha
    refine ⟨BitVec.ofInt 32 (trem b.toInt a.toInt), ?_,
      (isBinary_mod s).exec_ok hs hcap (checkDivisor_bind_nonzero ha _)⟩
    rw [toInt_ofInt_of_inInt32 (trem_inInt32 b.toInt ha), trem_eq]
  case zero =>
    exact fun s a b rest hs ha => (isBinary_mod s).faultsWith hs (checkDivisor_bind_zero ha _)
  case never =>
    intro s hrun hfault
    cases raises_of_faultsWith (State.safe_of_running hrun) hfault with
    | listed hrow _ => simp [Instr.mayRaise] at hrow

end Sys2Proof.Proofs
end

section
/-! SUPPORT. Control transfer (43_control.md): what JMP, JZ and JNZ answer on each kind of stack. -/

namespace Sys2Proof.Machine

theorem exec_jmp_nil {s : State} (h : s.stack = []) :
    exec .jmp s = .next (raise .stackUnderflow s) := by
  rw [exec_jmp, execJmp, pop_nil h]
  rfl

theorem exec_jmp_ok {s : State} {t : Word} {rest : List Word} (h : s.stack = t :: rest)
    (h0 : 0 ≤ t.toInt) (h1 : t.toInt < s.program.size) :
    exec .jmp s = .next { s with stack := rest, ip := t.toInt.toNat } := by
  simp only [exec_jmp, execJmp, pop_cons h, bind, Except.bind, checkTarget_with_stack,
    checkTarget_ok h0 h1]
  rfl

theorem exec_jmp_error {s : State} {t : Word} {rest : List Word} (h : s.stack = t :: rest)
    (ht : t.toInt < 0 ∨ s.program.size ≤ t.toInt) :
    exec .jmp s = .next (raise (.invalidJumpTarget t) s) := by
  simp only [exec_jmp, execJmp, pop_cons h, bind, Except.bind, checkTarget_with_stack,
    checkTarget_error ht, conclude_error]

/-- The meaning of `i` is the shared shape of JZ and JNZ with the condition `c`. -/
structure IsJumpIf (i : Instr) (c : Word → Bool) : Prop where
  length : i.length = 1
  exec_eq : ∀ s : State, exec i s = jumpIf i c s

theorem isJumpIf_jz : IsJumpIf .jz fun v => isZero v := ⟨rfl, exec_jz⟩
theorem isJumpIf_jnz : IsJumpIf .jnz fun v => !isZero v := ⟨rfl, exec_jnz⟩

theorem IsJumpIf.exec_taken {i : Instr} {c : Word → Bool} (h : IsJumpIf i c) {s : State}
    {t v : Word} {rest : List Word} (hs : s.stack = t :: v :: rest) (h0 : 0 ≤ t.toInt)
    (h1 : t.toInt < s.program.size) (hc : c v = true) :
    exec i s = .next { s with stack := rest, ip := t.toInt.toNat } := by
  rw [h.exec_eq, jumpIf_ok i c hs h0 h1, if_pos hc]

theorem IsJumpIf.exec_untaken {i : Instr} {c : Word → Bool} (h : IsJumpIf i c) {s : State}
    {t v : Word} {rest : List Word} (hs : s.stack = t :: v :: rest) (h0 : 0 ≤ t.toInt)
    (h1 : t.toInt < s.program.size) (hc : c v ≠ true) :
    exec i s = .next { s with stack := rest, ip := s.ip + 1 } := by
  rw [h.exec_eq, jumpIf_ok i c hs h0 h1, if_neg hc, h.length]

theorem IsJumpIf.faultsWith_target {i : Instr} {c : Word → Bool} (h : IsJumpIf i c) {s : State}
    {t v : Word} {rest : List Word} (hs : s.stack = t :: v :: rest)
    (ht : t.toInt < 0 ∨ s.program.size ≤ t.toInt) : FaultsWith i s (.invalidJumpTarget t) :=
  faultsWith_of_exec_eq_raise ((h.exec_eq s).trans (jumpIf_error i c hs ht))

theorem IsJumpIf.faultsWith_underflow {i : Instr} {c : Word → Bool} (h : IsJumpIf i c) {s : State}
    (hs : s.stackTop < 2) : FaultsWith i s .stackUnderflow :=
  faultsWith_of_exec_eq_raise ((h.exec_eq s).trans (jumpIf_short i c hs))

end Sys2Proof.Machine

/-! ### The obligations of 43_control.md -/

namespace Sys2Proof.Proofs

open Sys2Proof.Machine

/-- Settles O32: JMP's answer on a valid and on an invalid target, and on the empty stack. -/
theorem jmpJumpsToAValidTarget : Obligations.JmpJumpsToAValidTarget := by
  unfold Obligations.JmpJumpsToAValidTarget
  refine ⟨rfl, fun s t rest => exec_jmp_ok, fun s t rest hs ht => ?_, fun s hempty => ?_⟩
  · exact faultsWith_of_exec_eq_raise (exec_jmp_error hs ht)
  · exact faultsWith_of_exec_eq_raise (exec_jmp_nil (State.stackTop_eq_zero_iff.mp hempty))

/-- Settles O33: JZ's condition holds of 0 alone. -/
theorem jzJumpsExactlyOnZero : Obligations.JzJumpsExactlyOnZero := by
  unfold Obligations.JzJumpsExactlyOnZero
  refine ⟨rfl, fun s t v rest hs h0 h1 hv => isJumpIf_jz.exec_taken hs h0 h1 ?_,
    fun s t v rest hs h0 h1 hv => isJumpIf_jz.exec_untaken hs h0 h1 ?_,
    fun s t v rest => isJumpIf_jz.faultsWith_target, fun s => isJumpIf_jz.faultsWith_underflow⟩
  · exact (isZero_iff v).mpr hv
  · exact mt (isZero_iff v).mp hv

/-- Settles O34: JNZ's condition holds of every value other than 0. -/
theorem jnzJumpsExactlyOnNonzero : Obligations.JnzJumpsExactlyOnNonzero := by
  unfold Obligations.JnzJumpsExactlyOnNonzero
  refine ⟨rfl, fun s t v rest hs h0 h1 hv => isJumpIf_jnz.exec_taken hs h0 h1 ?_,
    fun s t v rest hs h0 h1 hv => isJumpIf_jnz.exec_untaken hs h0 h1 ?_,
    fun s t v rest => isJumpIf_jnz.faultsWith_target, fun s => isJumpIf_jnz.faultsWith_underflow⟩
  · simpa [isZero] using hv
  · simpa [isZero] using hv

end Sys2Proof.Proofs
end

section
/-! SUPPORT. PRINT_CHAR and HALT (44_system_output.md), the ends of a run, the codes of the faults, and
that every instruction but NOP has an effect of its own. -/

namespace Sys2Proof.Machine

theorem exec_printChar_cons {s : State} {v : Word} {rest : List Word} (h : s.stack = v :: rest) :
    exec .printChar s =
      .next { s with stack := rest, ip := s.ip + 1, out := s.out ++ [.emitByte (lowByte v)] } := by
  rw [exec_printChar, output_cons _ _ h]
  rfl

theorem exec_printChar_nil {s : State} (h : s.stack = []) :
    exec .printChar s = .next (raise .stackUnderflow s) := by
  rw [exec_printChar, output_nil _ _ h]

/-- R60: a state with a reason to stop takes no step. -/
theorem step_of_stopOf {s : State} {f : Fault} (h : stopOf s = some f) : step s = .fault f := by
  rw [step, h]

theorem FaultKind.code_bounds (k : FaultKind) : 1 ≤ k.code ∧ k.code ≤ 7 := by
  cases k <;> simp [FaultKind.code]

/-- A code names a kind up to its payload. -/
theorem FaultKind.eq_or_payload_of_code_eq {k k' : FaultKind} (h : k.code = k'.code) :
    k = k' ∨ (∃ b b', k = .invalidOpcode b ∧ k' = .invalidOpcode b') ∨
      ∃ t t', k = .invalidJumpTarget t ∧ k' = .invalidJumpTarget t' := by
  match k, k', h with
  | .stackUnderflow, .stackUnderflow, _ => exact .inl rfl
  | .stackOverflow, .stackOverflow, _ => exact .inl rfl
  | .invalidOpcode b, .invalidOpcode b', _ => exact .inr (.inl ⟨b, b', rfl, rfl⟩)
  | .divisionByZero, .divisionByZero, _ => exact .inl rfl
  | .invalidJumpTarget t, .invalidJumpTarget t', _ => exact .inr (.inr ⟨t, t', rfl, rfl⟩)
  | .programBoundsExceeded, .programBoundsExceeded, _ => exact .inl rfl
  | .arithmeticOverflow, .arithmeticOverflow, _ => exact .inl rfl

/-! ### Every instruction but NOP does something -/

/-- A state in which no instruction faults: room on the stack, two different operands, the top one a
divisor other than 0 and a valid jump target. -/
def busy : State :=
  { State.boot 4 .wrap [0x0D, 0x0D] 0 with stack := [1, 2] }

theorem busy_inv : busy.Inv := ⟨by decide, by decide, Memory.ofBytes_wf _⟩

/-- Every instruction but NOP completes in that state and changes the stack or the status. -/
theorem exec_busy {i : Instr} (h : i ≠ .nop) :
    ∃ t, exec i busy = .next t ∧ (t.status = .running ∨ t.status = .halted) ∧
      (t.stack ≠ busy.stack ∨ t.status ≠ busy.status) := by
  cases i with
  | push imm8 => exact ⟨_, exec_push_room imm8 (by decide), .inl rfl, .inl (List.cons_ne_self _ _)⟩
  | pop => exact ⟨_, exec_pop_cons rfl, .inl rfl, .inl (by decide)⟩
  | dup => exact ⟨_, exec_dup_room rfl (by decide), .inl rfl, .inl (by decide)⟩
  | swap => exact ⟨_, exec_swap_cons_cons rfl (by decide), .inl rfl, .inl (by decide)⟩
  | add =>
    exact ⟨_, (computes_add busy).exec_ok (v := 3) rfl (by decide) rfl, .inl rfl, .inl (by decide)⟩
  | sub =>
    exact ⟨_, (computes_sub busy).exec_ok (v := 1) rfl (by decide) rfl, .inl rfl, .inl (by decide)⟩
  | mul =>
    exact ⟨_, (computes_mul busy).exec_ok (v := 2) rfl (by decide) rfl, .inl rfl, .inl (by decide)⟩
  | div =>
    exact ⟨_, exec_div_ok (v := 2) rfl (by decide) (by decide) rfl, .inl rfl, .inl (by decide)⟩
  | mod =>
    exact ⟨_, (isBinary_mod busy).exec_ok (v := 0) rfl (by decide) rfl, .inl rfl, .inl (by decide)⟩
  | jmp => exact ⟨_, exec_jmp_ok rfl (by decide) (by decide), .inl rfl, .inl (by decide)⟩
  | jz =>
    exact ⟨_, isJumpIf_jz.exec_untaken rfl (by decide) (by decide) (by decide), .inl rfl, .inl (by decide)⟩
  | jnz =>
    exact ⟨_, isJumpIf_jnz.exec_taken rfl (by decide) (by decide) (by decide), .inl rfl, .inl (by decide)⟩
  | nop => exact absurd rfl h
  | print => exact ⟨_, exec_print_cons rfl, .inl rfl, .inl (by decide)⟩
  | printChar => exact ⟨_, exec_printChar_cons rfl, .inl rfl, .inl (by decide)⟩
  | halt => exact ⟨_, exec_halt busy, .inr rfl, .inr (by decide)⟩

end Sys2Proof.Machine

namespace Sys2Proof.Proofs

open Sys2Proof.Machine

/-- Settles O37: the low byte is the value mod 256. -/
theorem printCharEmitsTheLowByte : Obligations.PrintCharEmitsTheLowByte := by
  unfold Obligations.PrintCharEmitsTheLowByte
  refine ⟨rfl, fun s v rest hs => ⟨lowByte v, toNat_lowByte v, exec_printChar_cons hs⟩,
    fun s hempty => ?_⟩
  exact faultsWith_of_exec_eq_raise (exec_printChar_nil (State.stackTop_eq_zero_iff.mp hempty))

/-- Settles O38: HALT's meaning is the update of the status. -/
theorem haltEndsTheRunAndKeepsEverything : Obligations.HaltEndsTheRunAndKeepsEverything := by
  unfold Obligations.HaltEndsTheRunAndKeepsEverything
  exact ⟨rfl, exec_halt⟩

/-- Settles O16: each of the two ends is a reason to stop, by name. -/
theorem anEndedRunStopsByName : Obligations.AnEndedRunStopsByName := by
  unfold Obligations.AnEndedRunStopsByName
  exact ⟨fun s h => step_of_stopOf (by rw [stopOf, h]),
    fun s k h => step_of_stopOf (by rw [stopOf, h])⟩

/-- Settles O45: the codes are seven, and only a payload can differ under one code. -/
theorem faultCodesAreOneToSeven : Obligations.FaultCodesAreOneToSeven := by
  unfold Obligations.FaultCodesAreOneToSeven
  exact ⟨FaultKind.code_bounds, fun k k' => FaultKind.eq_or_payload_of_code_eq, rfl, rfl,
    fun _ => rfl, rfl, fun _ => rfl, rfl, rfl⟩

/-- Settles O46: in one state every instruction but NOP changes the stack or the status, which an
advance does not. -/
theorem onlyNopHasNoOtherEffect : Obligations.OnlyNopHasNoOtherEffect := by
  unfold Obligations.OnlyNopHasNoOtherEffect
  intro i hi
  obtain ⟨t, hexec, hstatus, hchanged⟩ := exec_busy hi
  refine ⟨busy, t, busy_inv, rfl, hexec, ?_, ?_⟩
  · intro k
    rcases hstatus with h | h
    · rw [h]
      nofun
    · rw [h]
      nofun
  · rintro rfl
    rcases hchanged with h | h
    · exact h rfl
    · exact h rfl

end Sys2Proof.Proofs
end

section
/-! SUPPORT. The canonical form of the program memory (20_memory.md, log 4): equal reads make equal
cells. -/

namespace Sys2Proof.Machine.Memory

theorem mem_of_cellAt_ne_unlisted {cells : List Host.Cell} {a : Nat}
    (h : cellAt cells a ≠ unlisted) : (a, cellAt cells a) ∈ cells := by
  induction cells with
  | nil => exact absurd rfl h
  | cons c cells ih =>
    obtain ⟨x, w⟩ := c
    by_cases hx : x = a
    · subst hx
      rw [cellAt, if_pos rfl]
      exact List.mem_cons_self
    · rw [cellAt, if_neg hx] at h ⊢
      exact List.mem_cons_of_mem _ (ih h)

/-- Addresses rise strictly, so no earlier cell hides a later one. -/
theorem cellAt_of_mem {cells : List Host.Cell} (hsorted : cells.Pairwise fun c d => c.1 < d.1)
    {c : Host.Cell} (h : c ∈ cells) : cellAt cells c.1 = c.2 := by
  induction cells with
  | nil => cases h
  | cons d cells ih =>
    rw [List.pairwise_cons] at hsorted
    obtain ⟨hlt, hsorted⟩ := hsorted
    rcases List.mem_cons.mp h with rfl | h
    · rw [cellAt, if_pos rfl]
    · rw [cellAt, if_neg (hlt c h).ne]
      exact ih hsorted h

/-- A cell of a canonical memory is a cell of every other one of the same length and the same bytes. -/
theorem mem_cells_of_read_eq {m m' : Memory} (hwf : m.wf) (hsize : m.size = m'.size)
    (hread : ∀ a, m.read a = m'.read a) {c : Host.Cell} (h : c ∈ m.cells) : c ∈ m'.cells := by
  obtain ⟨hsorted, hcells⟩ := hwf
  obtain ⟨hlt, hlisted⟩ := hcells c h
  have hc := hread c.1
  rw [read, read, if_pos hlt, if_pos (hsize ▸ hlt), cellAt_of_mem hsorted h] at hc
  have hbyte : c.2 = cellAt m'.cells c.1 := Option.some.inj hc
  have hmem := mem_of_cellAt_ne_unlisted (hbyte ▸ hlisted)
  rwa [← hbyte] at hmem

/-- Canonical cells are determined by which of them there are. -/
theorem eq_of_read_eq {m m' : Memory} (h : m.wf) (h' : m'.wf) (hsize : m.size = m'.size)
    (hread : ∀ a, m.read a = m'.read a) : m = m' := by
  have hirrefl : Std.Irrefl fun c d : Host.Cell => c.1 < d.1 := ⟨fun c => lt_irrefl c.1⟩
  have hantisymm : Std.Antisymm fun c d : Host.Cell => c.1 < d.1 :=
    ⟨fun _ _ hlt hgt => absurd hlt (lt_asymm hgt)⟩
  have hcells : m.cells = m'.cells := h.1.eq_of_mem_iff h'.1 fun c =>
    ⟨mem_cells_of_read_eq h hsize hread, mem_cells_of_read_eq h' hsize.symm fun a => (hread a).symm⟩
  cases m
  cases m'
  cases hsize
  cases hcells
  rfl

end Sys2Proof.Machine.Memory

namespace Sys2Proof.Proofs

open Sys2Proof.Machine

/-- Settles O50: a canonical memory is determined by its length and its reads. -/
theorem equalProgramsAreEqualMemories : Obligations.EqualProgramsAreEqualMemories := by
  unfold Obligations.EqualProgramsAreEqualMemories
  exact ⟨fun bs => ⟨Memory.ofBytes_wf bs, Memory.read_ofBytes bs⟩,
    fun m m' => Memory.eq_of_read_eq⟩

/-- Settles O51: the placement's laws, each its own lemma. -/
theorem placingAByteChangesThatByteAlone : Obligations.PlacingAByteChangesThatByteAlone := by
  unfold Obligations.PlacingAByteChangesThatByteAlone
  exact fun m a v h => ⟨Memory.place_wf h a v, Memory.read_place_same h a v,
    fun b hne => Memory.read_place_other v hne.symm, rfl⟩

end Sys2Proof.Proofs
end

section
/-! SUPPORT. The sink's numerals (44_system_output.md R93, log 9): what the digits write. -/

namespace Sys2Proof.Machine.Sink

/-- The digits write the number in decimal, in ASCII, without a leading zero. -/
structure IsNumeral (n : Nat) (digits : List Byte) : Prop where
  value : digits.foldl (fun n d => 10 * n + (d.toNat - 0x30)) 0 = n
  ascii : ∀ d ∈ digits, 0x30 ≤ d.toNat ∧ d.toNat ≤ 0x39
  ne_nil : digits ≠ []
  no_leading_zero : digits.head? = some 0x30 → digits = [0x30]

theorem toNat_asciiDigit {d : Nat} (h : d < 10) : (BitVec.ofNat 8 (0x30 + d)).toNat = 0x30 + d := by
  rw [BitVec.toNat_ofNat]
  omega

theorem isNumeral_singleton {d : Nat} (h : d < 10) : IsNumeral d [BitVec.ofNat 8 (0x30 + d)] := by
  have hd := toNat_asciiDigit h
  refine ⟨?_, fun b hb => ?_, List.cons_ne_nil _ _, fun hzero => ?_⟩
  · rw [List.foldl_cons, List.foldl_nil, hd]
    omega
  · rw [List.mem_singleton.mp hb, hd]
    omega
  · rw [List.head?_cons, Option.some.injEq] at hzero
    rw [hzero]

/-- A digit more writes ten times the number and the digit; the number being positive, its numeral does
not begin with a zero. -/
theorem IsNumeral.concat {n d : Nat} {digits : List Byte} (h : IsNumeral n digits) (hn : 0 < n)
    (hd : d < 10) : IsNumeral (10 * n + d) (digits ++ [BitVec.ofNat 8 (0x30 + d)]) := by
  have hlast := isNumeral_singleton hd
  refine ⟨?_, fun b hb => ?_, List.append_ne_nil_of_left_ne_nil h.ne_nil _, fun hzero => ?_⟩
  · rw [List.foldl_append, h.value, List.foldl_cons, List.foldl_nil, toNat_asciiDigit hd]
    omega
  · rcases List.mem_append.mp hb with hb | hb
    · exact h.ascii b hb
    · exact hlast.ascii b hb
  · rw [List.head?_append_of_ne_nil _ h.ne_nil] at hzero
    have hvalue := h.value
    rw [h.no_leading_zero hzero] at hvalue
    exact absurd hvalue hn.ne

/-- As many places as the number has digits are enough. -/
theorem digits_isNumeral {places n : Nat} (h : n < 10 ^ (places + 1)) :
    IsNumeral n (digits (places + 1) n) := by
  induction places generalizing n with
  | zero =>
    rw [digits, if_pos (by omega)]
    exact isNumeral_singleton (by omega)
  | succ places ih =>
    rw [digits]
    split
    next hsmall => exact isNumeral_singleton hsmall
    next hlarge =>
      have hrest : IsNumeral (n / 10) (digits (places + 1) (n / 10)) := ih (by omega)
      have hall := hrest.concat (d := n % 10) (by omega) (Nat.mod_lt n (by decide))
      rwa [Nat.div_add_mod] at hall

/-- Ten places are enough for an int32. -/
theorem digits_toInt_isNumeral (v : Word) : IsNumeral v.toInt.natAbs (digits 10 v.toInt.natAbs) := by
  refine digits_isNumeral ?_
  have hv := inInt32_toInt v
  simp only [InInt32, int32Min, int32Max] at hv
  omega

end Sys2Proof.Machine.Sink

namespace Sys2Proof.Proofs

open Sys2Proof.Machine

/-- Settles O52: the digits of an int32 are its numeral, and rendering goes event by event. -/
theorem theSinkRendersDecimalAndRawBytes : Obligations.TheSinkRendersDecimalAndRawBytes := by
  unfold Obligations.TheSinkRendersDecimalAndRawBytes
  refine ⟨fun v => ?_, fun b => rfl, fun xs ys => List.flatMap_append⟩
  have h := Sink.digits_toInt_isNumeral v
  exact ⟨_, rfl, h.value, h.ascii, h.ne_nil, h.no_leading_zero⟩

end Sys2Proof.Proofs
end
